-- ==== Sys2Proof/Word.lean ====
section
/-! DEFINITION. The widths of the CHIP-8 core's quantities (00_scope.md R5, R7): every register and memory value is an
unsigned number of a stated width, so each is a bit vector of that width; a register number is an index 0..15. -/

namespace Sys2Proof

/-- An 8-bit value: a V register, a timer, a memory byte, the immediate NN, the random byte. -/
abbrev Byte := BitVec 8

/-- A 16-bit value: I, PC, a stack slot, the instruction word. -/
abbrev Word := BitVec 16

/-- The 12-bit address immediate NNN (R60). -/
abbrev Addr12 := BitVec 12

/-- A nibble: "a 4-bit field of an instruction word" (R6). -/
abbrev Nibble := BitVec 4

/-- The keypad sample KEY[15:0]: bit `k` is 1 when key `k` is pressed (R33). -/
abbrev Keys := BitVec 16

/-- The number of a V register, 0 to 15, "always in [0,15] by construction (4-bit fields)" (R13). -/
abbrev Reg := Fin 16

/-- VF, the register that doubles as the flag register (R14). -/
abbrev VF : Reg := 15

/-- V0, the implicit operand of `BNNN` (R82). -/
abbrev V0 : Reg := 0

end Sys2Proof
end

