-- ==== Sys2Proof/Machine/Flags.lean ====
section
/-! DEFINITION. The values the flag-writing instructions put into VF: 0 or 1, all eight bits (10_state.md R14). -/

namespace Sys2Proof.Machine

/-- A flag as the byte VF holds. -/
def flagByte (b : Bool) : Byte := if b then 1 else 0

/-- `8XY4`: 1 if the sum exceeds 255 (41_load_alu.md R90). -/
def carryFlag (a b : Byte) : Byte := flagByte (decide (a.toNat + b.toNat > 255))

/-- `8XY5` (and `8XY7` with its operands exchanged), for `a − b`: 0 if `b > a` (borrow), else 1 (R91, R93). -/
def noBorrowFlag (a b : Byte) : Byte := flagByte (!decide (b.toNat > a.toNat))

/-- `8XY6`: the bit shifted out, old bit 0 (R92). -/
def shiftRightFlag (a : Byte) : Byte := flagByte (a.getLsbD 0)

/-- `8XYE`: the bit shifted out, old bit 7 (R94). -/
def shiftLeftFlag (a : Byte) : Byte := flagByte (a.getLsbD 7)

/-- `DXYN`: 1 if any collision was recorded (43_display.md R108, R111). -/
def collisionFlag (collision : Bool) : Byte := flagByte collision

end Sys2Proof.Machine
end

