-- ==== Sys2Proof/Syntax.lean ====
section
/-! DEFINITION. The instructions: one constructor for each of the 34 rows of spec/opcode_table.json, which is the complete
instruction list (30_encoding.md R63). A constructor carries the fields its format gives it (R59), the ignored Y of the
two shifts among them (R72), so that an instruction stands for exactly one word. A word that matches no row is no
instruction (R64) and has no constructor. -/

namespace Sys2Proof

/-- The instruction set, in the table's order. `x` and `y` are register numbers, `nn`, `nnn`, `n` the immediates. -/
inductive Instr where
  | cls                               -- 00E0  CLS
  | ret                               -- 00EE  RET
  | jp (nnn : Addr12)                 -- 1NNN  JP nnn
  | call (nnn : Addr12)               -- 2NNN  CALL nnn
  | seImm (x : Reg) (nn : Byte)       -- 3XNN  SE Vx, nn
  | sneImm (x : Reg) (nn : Byte)      -- 4XNN  SNE Vx, nn
  | seReg (x y : Reg)                 -- 5XY0  SE Vx, Vy
  | ldImm (x : Reg) (nn : Byte)       -- 6XNN  LD Vx, nn
  | addImm (x : Reg) (nn : Byte)      -- 7XNN  ADD Vx, nn
  | ldReg (x y : Reg)                 -- 8XY0  LD Vx, Vy
  | orReg (x y : Reg)                 -- 8XY1  OR Vx, Vy
  | andReg (x y : Reg)                -- 8XY2  AND Vx, Vy
  | xorReg (x y : Reg)                -- 8XY3  XOR Vx, Vy
  | addReg (x y : Reg)                -- 8XY4  ADD Vx, Vy
  | sub (x y : Reg)                   -- 8XY5  SUB Vx, Vy
  | shr (x y : Reg)                   -- 8XY6  SHR Vx        (y is encoded and ignored)
  | subn (x y : Reg)                  -- 8XY7  SUBN Vx, Vy
  | shl (x y : Reg)                   -- 8XYE  SHL Vx        (y is encoded and ignored)
  | sneReg (x y : Reg)                -- 9XY0  SNE Vx, Vy
  | ldI (nnn : Addr12)                -- ANNN  LD I, nnn
  | jpV0 (nnn : Addr12)               -- BNNN  JP V0, nnn
  | rnd (x : Reg) (nn : Byte)         -- CXNN  RND Vx, nn
  | drw (x y : Reg) (n : Nibble)      -- DXYN  DRW Vx, Vy, n
  | skp (x : Reg)                     -- EX9E  SKP Vx
  | sknp (x : Reg)                    -- EXA1  SKNP Vx
  | ldVxDt (x : Reg)                  -- FX07  LD Vx, DT
  | ldVxK (x : Reg)                   -- FX0A  LD Vx, K
  | ldDtVx (x : Reg)                  -- FX15  LD DT, Vx
  | ldStVx (x : Reg)                  -- FX18  LD ST, Vx
  | addI (x : Reg)                    -- FX1E  ADD I, Vx
  | ldF (x : Reg)                     -- FX29  LD F, Vx
  | ldB (x : Reg)                     -- FX33  LD B, Vx
  | stRegs (x : Reg)                  -- FX55  LD [I], Vx
  | ldRegs (x : Reg)                  -- FX65  LD Vx, [I]
  deriving DecidableEq, Repr

end Sys2Proof
end

