-- ==== Sys2Proof/WellFormed.lean ====
section
/-! DEFINITION. Well-formedness of an instruction. Every operand's range is carried by its type (a register number is a
`Fin 16`, NN a byte, NNN 12 bits, N 4 bits: 30_encoding.md R58, R60), so no term of `Instr` is out of range and every one
has an encoding. The one check the spec leaves is the canonical form of R72: the shifts `8XY6` and `8XYE` carry a Y that is
ignored; a disassembler prints Y = 0, and the hardware accepts any Y. -/

namespace Sys2Proof

/-- The canonical form of R72: a field the instruction ignores is 0. The machine runs the other forms too. -/
def Instr.canonical : Instr → Bool
  | .shr _ y => y == 0
  | .shl _ y => y == 0
  | .cls | .ret | .jp _ | .call _ | .seImm _ _ | .sneImm _ _ | .seReg _ _ | .ldImm _ _ | .addImm _ _ | .ldReg _ _
  | .orReg _ _ | .andReg _ _ | .xorReg _ _ | .addReg _ _ | .sub _ _ | .subn _ _ | .sneReg _ _ | .ldI _ | .jpV0 _
  | .rnd _ _ | .drw _ _ _ | .skp _ | .sknp _ | .ldVxDt _ | .ldVxK _ | .ldDtVx _ | .ldStVx _ | .addI _ | .ldF _
  | .ldB _ | .stRegs _ | .ldRegs _ => true

end Sys2Proof
end

