-- ==== Sys2Proof/Decode.lean ====
section
/-! DEFINITION. The decoder and dispatcher's selection, the encoder, and the opcode table (30_encoding.md R57 to R65, R68,
R69). Decoding is total: every 16-bit word is one of the 34 instructions or an unknown word, named by its set of R65. -/

namespace Sys2Proof

/-- The six sets of words that match no pattern (R65 (a) to (f)); all are the same no-op (R64). -/
inductive UnknownSet where
  | class0 | class5 | class8 | class9 | classE | classF
  deriving DecidableEq, Repr

/-- What the decoder answers: an instruction, an unknown word by its set, or (bytes only) fewer than two bytes. -/
inductive Decoded where
  | instr (i : Instr)
  | unknown (u : UnknownSet)
  | truncated
  deriving DecidableEq, Repr

/-! ### Fields (R58) -/

/-- The fields of an instruction word; all six are extracted from every word, and they overlap. -/
structure Fields where
  c   : Nibble
  x   : Reg
  y   : Reg
  n   : Nibble
  nn  : Byte
  nnn : Addr12
  deriving DecidableEq, Repr

/-- Field extraction: "opcode class (top nibble), X (bits 8–11), Y (bits 4–7), N (bits 0–3), NN (bits 0–7), NNN
(bits 0–11)" (R58). -/
def fields (w : Word) : Fields where
  c   := w.extractLsb' 12 4
  x   := (w.extractLsb' 8 4).toFin
  y   := (w.extractLsb' 4 4).toFin
  n   := w.extractLsb' 0 4
  nn  := w.extractLsb' 0 8
  nnn := w.extractLsb' 0 12

/-! ### Selection (R61, R62) -/

/-- Class 0 selects on the whole word (R62). -/
def decodeClass0 (w : Word) : Decoded :=
  if w = 0x00E0#16 then .instr .cls
  else if w = 0x00EE#16 then .instr .ret
  else .unknown .class0

/-- Class 8 selects on the low nibble (R61, R63 rows 10 to 18). -/
def decodeClass8 (f : Fields) : Decoded :=
  match f.n with
  | 0x0#4 => .instr (.ldReg f.x f.y)
  | 0x1#4 => .instr (.orReg f.x f.y)
  | 0x2#4 => .instr (.andReg f.x f.y)
  | 0x3#4 => .instr (.xorReg f.x f.y)
  | 0x4#4 => .instr (.addReg f.x f.y)
  | 0x5#4 => .instr (.sub f.x f.y)
  | 0x6#4 => .instr (.shr f.x f.y)
  | 0x7#4 => .instr (.subn f.x f.y)
  | 0xE#4 => .instr (.shl f.x f.y)
  | _     => .unknown .class8

/-- Class E selects on the low byte (R61, R63 rows 24 and 25). -/
def decodeClassE (f : Fields) : Decoded :=
  match f.nn with
  | 0x9E#8 => .instr (.skp f.x)
  | 0xA1#8 => .instr (.sknp f.x)
  | _      => .unknown .classE

/-- Class F selects on the low byte (R61, R63 rows 26 to 34). -/
def decodeClassF (f : Fields) : Decoded :=
  match f.nn with
  | 0x07#8 => .instr (.ldVxDt f.x)
  | 0x0A#8 => .instr (.ldVxK f.x)
  | 0x15#8 => .instr (.ldDtVx f.x)
  | 0x18#8 => .instr (.ldStVx f.x)
  | 0x1E#8 => .instr (.addI f.x)
  | 0x29#8 => .instr (.ldF f.x)
  | 0x33#8 => .instr (.ldB f.x)
  | 0x55#8 => .instr (.stRegs f.x)
  | 0x65#8 => .instr (.ldRegs f.x)
  | _      => .unknown .classF

/-- The decoder on one instruction word: the opcode class, then a secondary selector (R61, R62). `5XY0` and `9XY0` need
a low nibble of 0 (R62). The last arm is class 0xF. -/
def decodeWord (w : Word) : Decoded :=
  let f := fields w
  match f.c with
  | 0x0#4 => decodeClass0 w
  | 0x1#4 => .instr (.jp f.nnn)
  | 0x2#4 => .instr (.call f.nnn)
  | 0x3#4 => .instr (.seImm f.x f.nn)
  | 0x4#4 => .instr (.sneImm f.x f.nn)
  | 0x5#4 => if f.n = 0x0#4 then .instr (.seReg f.x f.y) else .unknown .class5
  | 0x6#4 => .instr (.ldImm f.x f.nn)
  | 0x7#4 => .instr (.addImm f.x f.nn)
  | 0x8#4 => decodeClass8 f
  | 0x9#4 => if f.n = 0x0#4 then .instr (.sneReg f.x f.y) else .unknown .class9
  | 0xA#4 => .instr (.ldI f.nnn)
  | 0xB#4 => .instr (.jpV0 f.nnn)
  | 0xC#4 => .instr (.rnd f.x f.nn)
  | 0xD#4 => .instr (.drw f.x f.y f.n)
  | 0xE#4 => decodeClassE f
  | _     => decodeClassF f

/-- The instruction word of two bytes: the byte at the lower address is the high byte (20_memory.md R47). -/
def wordOfBytes (hi lo : Byte) : Word := hi ++ lo

/-- The decoder on bytes: the first two bytes and the rest (R57: every instruction is exactly two bytes). -/
def decodeBytes : List Byte → Decoded × List Byte
  | hi :: lo :: rest => (decodeWord (wordOfBytes hi lo), rest)
  | bytes            => (.truncated, bytes)

/-! ### The encoder (R59, R63) -/

/-- A register number as the 4-bit field that names it. -/
def regField (r : Reg) : Nibble := BitVec.ofFin r

/-- Format `XNN`: class, X, NN. -/
def encodeXNN (c : Nibble) (x : Reg) (nn : Byte) : Word := c ++ regField x ++ nn

/-- Format `XYN`: class, X, Y, low nibble. -/
def encodeXYN (c : Nibble) (x y : Reg) (n : Nibble) : Word := c ++ regField x ++ regField y ++ n

/-- Format `NNN`: class, NNN. -/
def encodeNNN (c : Nibble) (nnn : Addr12) : Word := c ++ nnn

/-- The word of an instruction: its pattern of R63 with the letters filled in. Format `XSS` is `XNN` with the selector
for NN. -/
def encode : Instr → Word
  | .cls         => 0x00E0#16
  | .ret         => 0x00EE#16
  | .jp nnn      => encodeNNN 0x1 nnn
  | .call nnn    => encodeNNN 0x2 nnn
  | .seImm x nn  => encodeXNN 0x3 x nn
  | .sneImm x nn => encodeXNN 0x4 x nn
  | .seReg x y   => encodeXYN 0x5 x y 0x0
  | .ldImm x nn  => encodeXNN 0x6 x nn
  | .addImm x nn => encodeXNN 0x7 x nn
  | .ldReg x y   => encodeXYN 0x8 x y 0x0
  | .orReg x y   => encodeXYN 0x8 x y 0x1
  | .andReg x y  => encodeXYN 0x8 x y 0x2
  | .xorReg x y  => encodeXYN 0x8 x y 0x3
  | .addReg x y  => encodeXYN 0x8 x y 0x4
  | .sub x y     => encodeXYN 0x8 x y 0x5
  | .shr x y     => encodeXYN 0x8 x y 0x6
  | .subn x y    => encodeXYN 0x8 x y 0x7
  | .shl x y     => encodeXYN 0x8 x y 0xE
  | .sneReg x y  => encodeXYN 0x9 x y 0x0
  | .ldI nnn     => encodeNNN 0xA nnn
  | .jpV0 nnn    => encodeNNN 0xB nnn
  | .rnd x nn    => encodeXNN 0xC x nn
  | .drw x y n   => encodeXYN 0xD x y n
  | .skp x       => encodeXNN 0xE x 0x9E
  | .sknp x      => encodeXNN 0xE x 0xA1
  | .ldVxDt x    => encodeXNN 0xF x 0x07
  | .ldVxK x     => encodeXNN 0xF x 0x0A
  | .ldDtVx x    => encodeXNN 0xF x 0x15
  | .ldStVx x    => encodeXNN 0xF x 0x18
  | .addI x      => encodeXNN 0xF x 0x1E
  | .ldF x       => encodeXNN 0xF x 0x29
  | .ldB x       => encodeXNN 0xF x 0x33
  | .stRegs x    => encodeXNN 0xF x 0x55
  | .ldRegs x    => encodeXNN 0xF x 0x65

/-- The two bytes of an instruction as they lie in memory, the high byte first (20_memory.md R47). -/
def encodeBytes (i : Instr) : List Byte := [(encode i).extractLsb' 8 8, (encode i).extractLsb' 0 8]

/-! ### The opcode table (R63) -/

/-- A row of the table of R63: a word `w` selects it exactly when `w AND mask = pattern`. -/
structure Row where
  mask    : Word
  pattern : Word
  deriving DecidableEq, Repr

/-- The row of an instruction: the mask and match columns of R63. -/
def Instr.row : Instr → Row
  | .cls        => ⟨0xFFFF, 0x00E0⟩
  | .ret        => ⟨0xFFFF, 0x00EE⟩
  | .jp _       => ⟨0xF000, 0x1000⟩
  | .call _     => ⟨0xF000, 0x2000⟩
  | .seImm _ _  => ⟨0xF000, 0x3000⟩
  | .sneImm _ _ => ⟨0xF000, 0x4000⟩
  | .seReg _ _  => ⟨0xF00F, 0x5000⟩
  | .ldImm _ _  => ⟨0xF000, 0x6000⟩
  | .addImm _ _ => ⟨0xF000, 0x7000⟩
  | .ldReg _ _  => ⟨0xF00F, 0x8000⟩
  | .orReg _ _  => ⟨0xF00F, 0x8001⟩
  | .andReg _ _ => ⟨0xF00F, 0x8002⟩
  | .xorReg _ _ => ⟨0xF00F, 0x8003⟩
  | .addReg _ _ => ⟨0xF00F, 0x8004⟩
  | .sub _ _    => ⟨0xF00F, 0x8005⟩
  | .shr _ _    => ⟨0xF00F, 0x8006⟩
  | .subn _ _   => ⟨0xF00F, 0x8007⟩
  | .shl _ _    => ⟨0xF00F, 0x800E⟩
  | .sneReg _ _ => ⟨0xF00F, 0x9000⟩
  | .ldI _      => ⟨0xF000, 0xA000⟩
  | .jpV0 _     => ⟨0xF000, 0xB000⟩
  | .rnd _ _    => ⟨0xF000, 0xC000⟩
  | .drw _ _ _  => ⟨0xF000, 0xD000⟩
  | .skp _      => ⟨0xF0FF, 0xE09E⟩
  | .sknp _     => ⟨0xF0FF, 0xE0A1⟩
  | .ldVxDt _   => ⟨0xF0FF, 0xF007⟩
  | .ldVxK _    => ⟨0xF0FF, 0xF00A⟩
  | .ldDtVx _   => ⟨0xF0FF, 0xF015⟩
  | .ldStVx _   => ⟨0xF0FF, 0xF018⟩
  | .addI _     => ⟨0xF0FF, 0xF01E⟩
  | .ldF _      => ⟨0xF0FF, 0xF029⟩
  | .ldB _      => ⟨0xF0FF, 0xF033⟩
  | .stRegs _   => ⟨0xF0FF, 0xF055⟩
  | .ldRegs _   => ⟨0xF0FF, 0xF065⟩

/-- The 34 rows, in the table's order: one instruction of each kind gives the row. -/
def opcodeRows : List Row :=
  [Instr.cls, .ret, .jp 0, .call 0, .seImm 0 0, .sneImm 0 0, .seReg 0 0, .ldImm 0 0, .addImm 0 0, .ldReg 0 0,
   .orReg 0 0, .andReg 0 0, .xorReg 0 0, .addReg 0 0, .sub 0 0, .shr 0 0, .subn 0 0, .shl 0 0, .sneReg 0 0,
   .ldI 0, .jpV0 0, .rnd 0 0, .drw 0 0 0, .skp 0, .sknp 0, .ldVxDt 0, .ldVxK 0, .ldDtVx 0, .ldStVx 0, .addI 0,
   .ldF 0, .ldB 0, .stRegs 0, .ldRegs 0].map Instr.row

/-- Does the word select the row? -/
def Row.selects (r : Row) (w : Word) : Bool := w &&& r.mask == r.pattern

/-! ### The assembler notation (R70, R72; names only, decision D25) -/

/-- One hexadecimal digit, as the notation writes it. -/
def hexDigit (d : Nat) : Char := Nat.digitChar d |>.toUpper

/-- A number as `digits` hexadecimal digits after `0x`. -/
def hexText (digits v : Nat) : String :=
  "0x" ++ String.ofList ((List.range digits).map fun k => hexDigit (v / 16 ^ (digits - 1 - k) % 16))

/-- `V0` .. `VF`. -/
def Reg.text (r : Reg) : String := "V" ++ String.ofList [hexDigit r.val]

/-- The instruction in the spec's operand syntax (R70); the ignored Y of the shifts is not printed (R72). -/
def Instr.text : Instr → String
  | .cls         => "CLS"
  | .ret         => "RET"
  | .jp nnn      => "JP " ++ hexText 3 nnn.toNat
  | .call nnn    => "CALL " ++ hexText 3 nnn.toNat
  | .seImm x nn  => "SE " ++ Reg.text x ++ ", " ++ hexText 2 nn.toNat
  | .sneImm x nn => "SNE " ++ Reg.text x ++ ", " ++ hexText 2 nn.toNat
  | .seReg x y   => "SE " ++ Reg.text x ++ ", " ++ Reg.text y
  | .ldImm x nn  => "LD " ++ Reg.text x ++ ", " ++ hexText 2 nn.toNat
  | .addImm x nn => "ADD " ++ Reg.text x ++ ", " ++ hexText 2 nn.toNat
  | .ldReg x y   => "LD " ++ Reg.text x ++ ", " ++ Reg.text y
  | .orReg x y   => "OR " ++ Reg.text x ++ ", " ++ Reg.text y
  | .andReg x y  => "AND " ++ Reg.text x ++ ", " ++ Reg.text y
  | .xorReg x y  => "XOR " ++ Reg.text x ++ ", " ++ Reg.text y
  | .addReg x y  => "ADD " ++ Reg.text x ++ ", " ++ Reg.text y
  | .sub x y     => "SUB " ++ Reg.text x ++ ", " ++ Reg.text y
  | .shr x _     => "SHR " ++ Reg.text x
  | .subn x y    => "SUBN " ++ Reg.text x ++ ", " ++ Reg.text y
  | .shl x _     => "SHL " ++ Reg.text x
  | .sneReg x y  => "SNE " ++ Reg.text x ++ ", " ++ Reg.text y
  | .ldI nnn     => "LD I, " ++ hexText 3 nnn.toNat
  | .jpV0 nnn    => "JP V0, " ++ hexText 3 nnn.toNat
  | .rnd x nn    => "RND " ++ Reg.text x ++ ", " ++ hexText 2 nn.toNat
  | .drw x y n   => "DRW " ++ Reg.text x ++ ", " ++ Reg.text y ++ ", " ++ hexText 1 n.toNat
  | .skp x       => "SKP " ++ Reg.text x
  | .sknp x      => "SKNP " ++ Reg.text x
  | .ldVxDt x    => "LD " ++ Reg.text x ++ ", DT"
  | .ldVxK x     => "LD " ++ Reg.text x ++ ", K"
  | .ldDtVx x    => "LD DT, " ++ Reg.text x
  | .ldStVx x    => "LD ST, " ++ Reg.text x
  | .addI x      => "ADD I, " ++ Reg.text x
  | .ldF x       => "LD F, " ++ Reg.text x
  | .ldB x       => "LD B, " ++ Reg.text x
  | .stRegs x    => "LD [I], " ++ Reg.text x
  | .ldRegs x    => "LD " ++ Reg.text x ++ ", [I]"

/-! ### The host's entry -/

/-- The word of a table row's numbering: bits above `nbits` are 0, and the instruction is one 16-bit word (R57). -/
def tableWord (nbits w : Nat) : Word := BitVec.ofNat 16 (w % 2 ^ nbits)

/-- The instruction the decoder reads from the two bytes of the word, the high byte at the lower address (R47). -/
def decodeTableWord (nbits w : Nat) : Option Instr :=
  let word := tableWord nbits w
  match decodeBytes [word.extractLsb' 8 8, word.extractLsb' 0 8] with
  | (.instr i, _) => some i
  | _             => none

end Sys2Proof
end

