-- ==== Sys2Proof/Config.lean ====
section
/-! DEFINITION. What the spec leaves to the implementation or to the host: the open parameters of 00_scope.md R5 and the
free values (inputs under no law). None of the opaque constants has a body, so no proof can rest on a value of theirs. -/

namespace Sys2Proof

/-- The parameter `KEY_INDEX_MODE` of R5 and R118 (decision D14): what `EX9E`/`EXA1` do with VX > 15. -/
inductive KeyIndexMode where
  /-- the spec's default: the fatal condition `KeyIndexOutOfRange` -/
  | fault
  /-- the alternative: the index is VX mod 16 and nothing is raised -/
  | mask4
  deriving DecidableEq, Repr

/-- The spec's default of `KEY_INDEX_MODE` (R5, R118). -/
def Config.defaultKeyIndexMode : KeyIndexMode := .fault

/-- `TIMER_HZ` (R5): the rate of the timer tick, left open; no rule depends on it (D4) and no definition reads it. -/
opaque Config.timerHz : Nat

/-- `CYCLES_PER_TIMER_TICK` (R5): instruction ticks per timer tick, left open; no rule depends on it (D4) and no
definition reads it: the interleaving stands in `State.events` instead. -/
opaque Config.cyclesPerTimerTick : Nat

/-- FREE VALUE. The keypad sample of an instruction tick whose inputs no pending event fixes (R33: "an environment input
supplied with each InstrTick, under no law"). The argument is the counter `State.draws`. See notes/assumptions/2.md. -/
opaque Config.freeKeys : Nat → Keys

/-- FREE VALUE. The random byte of an instruction tick whose inputs no pending event fixes (R34: "a free draw of 8 bits
per CXNN, under no law"). The argument is the counter `State.draws`. See notes/assumptions/2.md. -/
opaque Config.freeByte : Nat → Byte

end Sys2Proof
end

