-- ==== Sys2Proof/Machine/State.lean ====
section
/-! DEFINITION. The state of the CHIP-8 core as plain data (10_state.md), the inputs the environment has still to deliver,
and the state after reset. The fatal conditions of the spec are no faults of the model: the spec says what state they
leave (60_exceptions.md R136), so they are next states with `run = halted`. -/

namespace Sys2Proof.Machine

/-- Memory: the bytes that differ from the boot contents, by rising address (20_memory.md R39, R41; Ops.lean gives what an
unlisted address reads as). -/
abbrev Memory := List Host.Cell

/-- The framebuffer: row `y`, column `x` is bit `x` of element `y` (R23, decision D24). -/
abbrev Framebuffer := Vector (BitVec 64) 32

/-- RUN, the state of the cycle state machine (R25). -/
inductive Run where
  | running
  /-- suspended by `FX0A`, which names the register the key index goes to -/
  | waitingForKey (x : Reg)
  /-- after a fatal condition; left only by `Reset` -/
  | halted
  deriving DecidableEq, Repr

/-- FAULT, which fatal condition halted the core (R26, R132; `Cause.code` gives the code the output shows). -/
inductive Cause where
  | none | romTooLarge | stackOverflow | stackUnderflow | memoryOutOfBounds | endOfMemory | keyIndexOutOfRange
  deriving DecidableEq, Repr

/-- An event of the environment (00_scope.md R10), with the inputs it delivers. -/
inductive Event where
  /-- an instruction tick: the keypad sample (R33) and the random byte a `CXNN` would consume (R34) -/
  | instrTick (key : Keys) (rnd : Byte)
  | timerTick
  | reset
  deriving DecidableEq, Repr

/-- Everything the spec gives the machine (10_state.md R13 to R26), and four fields of the model's own. -/
structure State where
  /-- V0..VF (R13) -/
  v         : Vector Byte 16
  /-- I (R15) -/
  i         : Word
  /-- PC (R16) -/
  pc        : Word
  /-- SP, 0 to 16 (R18) -/
  sp        : Fin 17
  /-- STACK[0..15] (R19) -/
  stack     : Vector Word 16
  /-- MEM (R20) -/
  mem       : Memory
  /-- DT (R21) -/
  dt        : Byte
  /-- ST (R22) -/
  st        : Byte
  /-- FB (R23) -/
  fb        : Framebuffer
  /-- IR (R24) -/
  ir        : Word
  /-- RUN (R25) -/
  run       : Run
  /-- FAULT (R26) -/
  fault     : Cause
  /-- FAULT_INFO, 17 bits (R26) -/
  faultInfo : BitVec 17
  /-- the keypad sample of the instruction tick being executed (R29 (d), R33): an input, held for `exec` -/
  key       : Keys
  /-- the random byte of the instruction tick being executed (R34): an input, held for `exec` -/
  rnd       : Byte
  /-- the model's own: the events still to come, the next one first (notes/assumptions/1.md) -/
  events    : List Event
  /-- the model's own: how many free inputs have been drawn (notes/assumptions/2.md) -/
  draws     : Nat
  /-- the configuration strap `KEY_INDEX_MODE` (R5, R118), which nothing changes (notes/assumptions/3.md) -/
  keyIndexMode : KeyIndexMode
  deriving DecidableEq, Repr

/-- Faults of the model. There is none, so nobody raises one (safe): every fatal condition of the spec has a state of its
own, `run = halted` (R136), and every address the machine forms is checked before it is used (20_memory.md R43, R46). -/
inductive Fault where
  deriving DecidableEq, Repr

/-- Refusals of the model. -/
inductive Refusal where
  /-- Raised by an arm of `exec` whose instruction has no meaning yet (safe: the machine stops). No arm raises it now. -/
  | notModelled (mnemonic : String)
  deriving DecidableEq, Repr

/-- The machine right after reset with no program loaded (10_state.md R37, 70_reset_and_hazards.md R152): memory holds the
boot contents and nothing else, PC is `0x200`, every other register is 0, RUN is Running. No event is pending. -/
def State.reset : State where
  v         := Vector.replicate 16 0
  i         := 0
  pc        := 0x200
  sp        := 0
  stack     := Vector.replicate 16 0
  mem       := []
  dt        := 0
  st        := 0
  fb        := Vector.replicate 32 0
  ir        := 0
  run       := .running
  fault     := .none
  faultInfo := 0
  key       := 0
  rnd       := 0
  events    := []
  draws     := 0
  keyIndexMode := Config.defaultKeyIndexMode

end Sys2Proof.Machine
end

