-- ==== Sys2Proof/Machine/Ops.lean ====
section
/-! DEFINITION. The named operations over memory and registers, the checked PC advance, the call stack, the framebuffer,
and the one mechanism by which a fatal condition halts the core (60_exceptions.md R136). -/

namespace Sys2Proof.Machine

/-! ### Memory (20_memory.md) -/

/-- The standard font, 16 glyphs of 5 bytes (R42). -/
def fontTable : List Byte :=
  [0xF0, 0x90, 0x90, 0x90, 0xF0] ++ [0x20, 0x60, 0x20, 0x20, 0x70] ++
  [0xF0, 0x10, 0xF0, 0x80, 0xF0] ++ [0xF0, 0x10, 0xF0, 0x10, 0xF0] ++
  [0x90, 0x90, 0xF0, 0x10, 0x10] ++ [0xF0, 0x80, 0xF0, 0x10, 0xF0] ++
  [0xF0, 0x80, 0xF0, 0x90, 0xF0] ++ [0xF0, 0x10, 0x20, 0x40, 0x40] ++
  [0xF0, 0x90, 0xF0, 0x90, 0xF0] ++ [0xF0, 0x90, 0xF0, 0x10, 0xF0] ++
  [0xF0, 0x90, 0xF0, 0x90, 0x90] ++ [0xE0, 0x90, 0xE0, 0x90, 0xE0] ++
  [0xF0, 0x80, 0x80, 0x80, 0xF0] ++ [0xE0, 0x90, 0x90, 0x90, 0xE0] ++
  [0xF0, 0x80, 0xF0, 0x80, 0xF0] ++ [0xF0, 0x80, 0xF0, 0x80, 0x80]

/-- What an address holds at boot, which is what an unlisted address reads as (R41, R42): the font at `0x050`..`0x09F`,
0 everywhere else. -/
def bootByte (a : Nat) : Byte :=
  if 0x050 ≤ a ∧ a ≤ 0x09F then fontTable.getD (a - 0x050) 0 else 0

/-- `MEM[a]`. Reading changes nothing (R44); the bound of R44 is `checkRange`'s. -/
def Memory.read : Memory → Nat → Byte
  | [],          a => bootByte a
  | (b, w) :: m, a => if a = b then w else Memory.read m a

/-- `MEM[a] <- v` (R45), keeping the canonical form: rising addresses, no entry equal to the boot contents. The bound of
R45 is `checkRange`'s. -/
def Memory.write : Memory → Nat → Byte → Memory
  | [],          a, v => if v = bootByte a then [] else [(a, v)]
  | (b, w) :: m, a, v =>
    if a < b then (if v = bootByte a then (b, w) :: m else (a, v) :: (b, w) :: m)
    else if a = b then (if v = bootByte a then m else (a, v) :: m)
    else (b, w) :: Memory.write m a v

/-- The bytes stored at `a`, `a + 1`, ... in ascending order (R53). -/
def Memory.writeBytes : Memory → Nat → List Byte → Memory
  | m, _, []      => m
  | m, a, b :: bs => Memory.writeBytes (Memory.write m a b) (a + 1) bs

/-- The `n` bytes at `a`, `a + 1`, ... in ascending order (R53). -/
def Memory.readBytes (m : Memory) (a n : Nat) : List Byte := (List.range n).map fun k => Memory.read m (a + k)

/-- Addresses strictly rising, all inside MEM, no entry equal to the boot contents. -/
def Memory.wfAbove : Nat → Memory → Bool
  | _,  []          => true
  | lo, (a, v) :: m => decide (lo ≤ a) && decide (a ≤ 0xFFF) && decide (v ≠ bootByte a) && Memory.wfAbove (a + 1) m

/-- The canonical form of a memory. -/
def Memory.wf (m : Memory) : Bool := Memory.wfAbove 0 m

/-! ### Registers -/

/-- Read `V[r]` (R13). -/
def State.getV (s : State) (r : Reg) : Byte := s.v[r.val]

/-- `V[r] <- b` (R13). -/
def State.setV (r : Reg) (b : Byte) (s : State) : State := { s with v := s.v.set r.val b }

/-- A result and then the flag: the flag is written last and wins when `r` is VF (R83, decision D9). -/
def State.setVFlag (r : Reg) (b flag : Byte) (s : State) : State := (s.setV r b).setV VF flag

/-- `I <- w` (R15). -/
def State.setI (w : Word) (s : State) : State := { s with i := w }

/-- `PC <- w` (R16). -/
def State.setPc (w : Word) (s : State) : State := { s with pc := w }

/-- `DT <- b` (R21). -/
def State.setDt (b : Byte) (s : State) : State := { s with dt := b }

/-- `ST <- b` (R22). -/
def State.setSt (b : Byte) (s : State) : State := { s with st := b }

/-- `RUN <- r` (R25). -/
def State.setRun (r : Run) (s : State) : State := { s with run := r }

/-- The framebuffer after a clear or a draw (R23). -/
def State.setFb (f : Framebuffer) (s : State) : State := { s with fb := f }

/-- Memory after a store (R20). -/
def State.setMem (m : Memory) (s : State) : State := { s with mem := m }

/-- All of V0..VF (for `FX65`). -/
def State.setAllV (v : Vector Byte 16) (s : State) : State := { s with v := v }

/-- One byte of memory. -/
def State.readByte (s : State) (a : Nat) : Byte := Memory.read s.mem a

/-! ### Fatal conditions (60_exceptions.md) -/

/-- The cause code FAULT shows (R132). -/
def Cause.code : Cause → BitVec 3
  | .none               => 0
  | .romTooLarge        => 1
  | .stackOverflow      => 2
  | .stackUnderflow     => 3
  | .memoryOutOfBounds  => 4
  | .endOfMemory        => 5
  | .keyIndexOutOfRange => 6

/-- `raise C(info)`: FAULT and FAULT_INFO are written and the core halts; nothing else changes, since every check
precedes every write (R136). -/
def State.raise (c : Cause) (info : Nat) (s : State) : State :=
  { s with fault := c, faultInfo := BitVec.ofNat 17 info, run := .halted }

/-- `CheckRange(a, n)` (20_memory.md R46): if the last of the `n` bytes at `a` lies above `0xFFF`, the access raises
`MemoryOutOfBounds` of that last address and does nothing; otherwise `ok`. With `n = 0` there is no access and no check.
`a` is not wrapped (R43). -/
def State.checkRange (a n : Nat) (s ok : State) : State :=
  if n ≠ 0 ∧ a + n - 1 > 0xFFF then s.raise .memoryOutOfBounds (a + n - 1) else ok

/-! ### PC (10_state.md R17, 40_control_flow.md R74) -/

/-- `AdvancePC()`: the checked advance (R17). -/
def State.advancePC (s : State) : State :=
  if s.pc.toNat + 2 > 0x0FFF then s.raise .endOfMemory s.pc.toNat else s.setPc (s.pc + 2)

/-- A skip: `SkipNext()` when the condition holds (R74). -/
def State.skipIf (taken : Bool) (s : State) : State := if taken then s.advancePC else s

/-! ### The call stack (10_state.md R18, R19) -/

/-- `STACK[SP] <- PC; SP <- SP + 1`, then `PC <- target`; with SP = 16 it raises `StackOverflow` (40_control_flow.md R77).
DEDUCED: whatever PC is, it is pushed as R77's pseudocode says; a `2NNN` fetched from the odd address `0xFFD` pushes `0xFFF`,
although the corner cases of R75 and R77 say "at most `0xFFE`" (notes/assumptions/15.md). -/
def State.pushAndJump (target : Word) (s : State) : State :=
  if h : s.sp.val = 16 then s.raise .stackOverflow 0
  else { s with stack := s.stack.set s.sp.val s.pc (by omega), sp := ⟨s.sp.val + 1, by omega⟩, pc := target }

/-- `SP <- SP − 1; PC <- STACK[SP]`; with SP = 0 it raises `StackUnderflow` (40_control_flow.md R75). The slot keeps its
value (R19). -/
def State.popAndJump (s : State) : State :=
  if h : s.sp.val = 0 then s.raise .stackUnderflow 0
  else { s with sp := ⟨s.sp.val - 1, by omega⟩, pc := s.stack[s.sp.val - 1] }

/-! ### The framebuffer (43_display.md R106) -/

/-- `FB[y][x]`. -/
def Framebuffer.pixel (f : Framebuffer) (x : Fin 64) (y : Fin 32) : Bool := f[y.val].getLsbD x.val

/-- `FB[y][x] <- FB[y][x] XOR bit`. -/
def Framebuffer.xorPixel (f : Framebuffer) (x : Fin 64) (y : Fin 32) (bit : Bool) : Framebuffer :=
  f.set y.val (f[y.val] ^^^ (if bit then 1#64 <<< x.val else 0#64))

/-- All 2048 pixels 0. -/
def Framebuffer.clear : Framebuffer := Vector.replicate 32 0

/-! ### The outputs (10_state.md R30, R35, R36) -/

/-- `TONE`: the level ST > 0 (44_keypad_timers.md R126). -/
def State.tone (s : State) : Bool := decide (s.st.toNat > 0)

/-- `HALTED` (R36). -/
def State.haltedOut (s : State) : Bool := decide (s.run = .halted)

/-- `WAITING` (R30). -/
def State.waitingOut (s : State) : Bool :=
  match s.run with
  | .waitingForKey _ => true
  | .running         => false
  | .halted          => false

/-- `FAULT`, the 3-bit code (R26, R132). -/
def State.faultOut (s : State) : BitVec 3 := s.fault.code

/-- `FB` as a read port addressed by `y × 64 + x` (R30, D24). -/
def State.fbOut (s : State) (k : Fin 2048) : Bool :=
  Framebuffer.pixel s.fb ⟨k.val % 64, by omega⟩ ⟨k.val / 64, by omega⟩

end Sys2Proof.Machine
end

