-- ==== Sys2Proof/Machine/Operands.lean ====
section
/-! DEFINITION. The operand forms of the instructions (30_encoding.md R60): immediates, the one data addressing mode, the
computed addresses, and the key index. Addresses are unbounded sums, never wrapped (20_memory.md R43). -/

namespace Sys2Proof.Machine

/-- NNN as a 16-bit address, zero-extended (R60). -/
def zextAddr (nnn : Addr12) : Word := nnn.zeroExtend 16

/-- The effective address `EA = I + k` (42_index_memory.md R98). -/
def State.effAddr (s : State) (k : Nat) : Nat := s.i.toNat + k

/-- The target of `BNNN`, `NNN + V0`, 0 to `0x10FE` (40_control_flow.md R82). -/
def State.indexedTarget (s : State) (nnn : Addr12) : Nat := nnn.toNat + (s.getV V0).toNat

/-- `I + VX mod 65536` (42_index_memory.md R100). -/
def State.indexSum (s : State) (x : Reg) : Word := s.i + (s.getV x).zeroExtend 16

/-- The address of glyph VX: font base `0x050` plus 5 bytes a glyph, the whole 8-bit VX (42_index_memory.md R101). -/
def glyphAddr (b : Byte) : Word := BitVec.ofNat 16 (0x050 + 5 * b.toNat)

/-- The decimal digits of a byte, hundreds first (42_index_memory.md R102). -/
def bcdDigits (b : Byte) : List Byte :=
  [BitVec.ofNat 8 (b.toNat / 100), BitVec.ofNat 8 (b.toNat / 10 % 10), BitVec.ofNat 8 (b.toNat % 10)]

/-- The first `x + 1` registers, V0 first: X is a count (R60, 42_index_memory.md R103). -/
def State.regsThrough (s : State) (x : Reg) : List Byte := s.v.toList.take (x.val + 1)

/-- V0..VX replaced by the bytes at `a`, `a + 1`, ..., the rest kept (42_index_memory.md R104). -/
def State.regsLoaded (s : State) (a : Nat) (x : Reg) : Vector Byte 16 :=
  Vector.ofFn fun r => if r.val ≤ x.val then s.readByte (a + r.val) else s.getV r

/-- The key index an `EX9E`/`EXA1` uses: VX when it is 0 to 15, else by `KEY_INDEX_MODE` none (the fatal condition) or
VX mod 16 (44_keypad_timers.md R118). -/
def keyIndex (mode : KeyIndexMode) (b : Byte) : Option (Fin 16) :=
  if h : b.toNat < 16 then some ⟨b.toNat, h⟩
  else match mode with
    | .fault => none
    | .mask4 => some ⟨b.toNat % 16, Nat.mod_lt _ (by decide)⟩

/-- Is key `k` pressed in the sample (44_keypad_timers.md R115)? -/
def keyDown (keys : Keys) (k : Fin 16) : Bool := keys.getLsbD k.val

/-- The lowest pressed key, or none when no key is down: the priority encoder of R121 (decision D15). -/
def selectKey (keys : Keys) : Option (Fin 16) := (List.finRange 16).find? fun k => keyDown keys k

end Sys2Proof.Machine
end

