-- ==== Sys2Proof/Machine/Alu.lean ====
section
/-! DEFINITION. Register load, arithmetic, logic, shift, random: `6XNN 7XNN 8XY0`-`8XYE CXNN` (41_load_alu.md). Operands
are read before any write, and a flag is written last (R83). None of these raises a fatal condition. -/

namespace Sys2Proof.Machine

/-- `6XNN` LD Vx, nn (R84). -/
def execLdImm (x : Reg) (nn : Byte) (s : State) : Host.Outcome State Fault Refusal := .next (s.setV x nn)

/-- `7XNN` ADD Vx, nn: wraps at 8 bits, no flag (R85). -/
def execAddImm (x : Reg) (nn : Byte) (s : State) : Host.Outcome State Fault Refusal := .next (s.setV x (s.getV x + nn))

/-- `8XY0` LD Vx, Vy (R86). -/
def execLdReg (x y : Reg) (s : State) : Host.Outcome State Fault Refusal := .next (s.setV x (s.getV y))

/-- `8XY1` OR: VF is not written (R87). -/
def execOr (x y : Reg) (s : State) : Host.Outcome State Fault Refusal := .next (s.setV x (s.getV x ||| s.getV y))

/-- `8XY2` AND: VF is not written (R88). -/
def execAnd (x y : Reg) (s : State) : Host.Outcome State Fault Refusal := .next (s.setV x (s.getV x &&& s.getV y))

/-- `8XY3` XOR: VF is not written (R89). -/
def execXor (x y : Reg) (s : State) : Host.Outcome State Fault Refusal := .next (s.setV x (s.getV x ^^^ s.getV y))

/-- `8XY4` ADD Vx, Vy with VF = carry out (R90). -/
def execAddReg (x y : Reg) (s : State) : Host.Outcome State Fault Refusal :=
  .next (s.setVFlag x (s.getV x + s.getV y) (carryFlag (s.getV x) (s.getV y)))

/-- `8XY5` SUB, VX − VY, with VF = no borrow (R91). -/
def execSub (x y : Reg) (s : State) : Host.Outcome State Fault Refusal :=
  .next (s.setVFlag x (s.getV x - s.getV y) (noBorrowFlag (s.getV x) (s.getV y)))

/-- `8XY6` SHR: VX logically right by one, VF = old bit 0; Y is ignored (R92, 30_encoding.md R72). -/
def execShr (x _y : Reg) (s : State) : Host.Outcome State Fault Refusal :=
  .next (s.setVFlag x (s.getV x >>> 1) (shiftRightFlag (s.getV x)))

/-- `8XY7` SUBN, VY − VX, with VF = no borrow (R93). -/
def execSubn (x y : Reg) (s : State) : Host.Outcome State Fault Refusal :=
  .next (s.setVFlag x (s.getV y - s.getV x) (noBorrowFlag (s.getV y) (s.getV x)))

/-- `8XYE` SHL: VX left by one, VF = old bit 7; Y is ignored (R94, 30_encoding.md R72). -/
def execShl (x _y : Reg) (s : State) : Host.Outcome State Fault Refusal :=
  .next (s.setVFlag x (s.getV x <<< 1) (shiftLeftFlag (s.getV x)))

/-- `CXNN` RND: the tick's random byte AND NN (R95, 10_state.md R34). -/
def execRnd (x : Reg) (nn : Byte) (s : State) : Host.Outcome State Fault Refusal := .next (s.setV x (s.rnd &&& nn))

end Sys2Proof.Machine
end

