-- ==== Sys2Proof/Machine/Control.lean ====
section
/-! DEFINITION. Control transfer: `00EE 1NNN 2NNN 3XNN 4XNN 5XY0 9XY0 BNNN` (40_control_flow.md), and the word that
matches no pattern (30_encoding.md R64). In every meaning PC is already the address of the next instruction (R73). -/

namespace Sys2Proof.Machine

/-- `00EE` RET (R75). -/
def execRet (s : State) : Host.Outcome State Fault Refusal := .next s.popAndJump

/-- `1NNN` JP: any NNN, odd or even (R76). -/
def execJp (nnn : Addr12) (s : State) : Host.Outcome State Fault Refusal := .next (s.setPc (zextAddr nnn))

/-- `2NNN` CALL (R77). -/
def execCall (nnn : Addr12) (s : State) : Host.Outcome State Fault Refusal := .next (s.pushAndJump (zextAddr nnn))

/-- `3XNN` SE Vx, nn (R78). -/
def execSeImm (x : Reg) (nn : Byte) (s : State) : Host.Outcome State Fault Refusal :=
  .next (s.skipIf (decide (s.getV x = nn)))

/-- `4XNN` SNE Vx, nn (R79). -/
def execSneImm (x : Reg) (nn : Byte) (s : State) : Host.Outcome State Fault Refusal :=
  .next (s.skipIf (decide (s.getV x ≠ nn)))

/-- `5XY0` SE Vx, Vy: register against register (R80, 90_conflicts.md C10). -/
def execSeReg (x y : Reg) (s : State) : Host.Outcome State Fault Refusal :=
  .next (s.skipIf (decide (s.getV x = s.getV y)))

/-- `9XY0` SNE Vx, Vy (R81). -/
def execSneReg (x y : Reg) (s : State) : Host.Outcome State Fault Refusal :=
  .next (s.skipIf (decide (s.getV x ≠ s.getV y)))

/-- `BNNN` JP V0, nnn: a sum above `0xFFF` raises `MemoryOutOfBounds` of it and PC is not loaded (R82). -/
def execJpV0 (nnn : Addr12) (s : State) : Host.Outcome State Fault Refusal :=
  .next (if s.indexedTarget nnn > 0x0FFF then s.raise .memoryOutOfBounds (s.indexedTarget nnn)
    else s.setPc (BitVec.ofNat 16 (s.indexedTarget nnn)))

/-- A word that matches no pattern: PC keeps the value the fetch gave it and nothing else changes (R64, R140). -/
def execUnknown (s : State) : Host.Outcome State Fault Refusal := .next s

end Sys2Proof.Machine
end

