-- ==== Sys2Proof/Machine/Display.lean ====
section
/-! DEFINITION. The display: `00E0`, `DXYN`, and the sprite blitter (43_display.md). -/

namespace Sys2Proof.Machine

/-- What the blitter carries from pixel to pixel: the framebuffer and whether a collision was recorded. -/
structure Blit where
  fb        : Framebuffer
  collision : Bool
  deriving DecidableEq, Repr

/-- The bit of a sprite byte at column `col`: bit 7 is column 0 (R106, R108). -/
def spriteBit (b : Byte) (col : Nat) : Bool := b.getLsbD (7 - col)

/-- The target column, `(ox + col) mod 64` (R110). -/
def targetX (ox col : Nat) : Fin 64 := ⟨(ox + col) % 64, Nat.mod_lt _ (by decide)⟩

/-- The target row, `(oy + row) mod 32` (R110). -/
def targetY (oy row : Nat) : Fin 32 := ⟨(oy + row) % 32, Nat.mod_lt _ (by decide)⟩

/-- One pixel: a collision when the sprite bit is 1 and the pixel is already 1, then the XOR (R108, R111). -/
def Blit.plot (x : Fin 64) (y : Fin 32) (bit : Bool) (d : Blit) : Blit where
  fb        := Framebuffer.xorPixel d.fb x y bit
  collision := d.collision || (bit && Framebuffer.pixel d.fb x y)

/-- One row of the sprite: columns 0 to 7 (R108). -/
def Blit.drawRow (ox oy row : Nat) (b : Byte) (d : Blit) : Blit :=
  (List.range 8).foldl (fun d col => d.plot (targetX ox col) (targetY oy row) (spriteBit b col)) d

/-- The rows of the sprite from row number `row` on (R108). -/
def Blit.drawRows (ox oy : Nat) : Nat → List Byte → Blit → Blit
  | _,   [],      d => d
  | row, b :: bs, d => Blit.drawRows ox oy (row + 1) bs (Blit.drawRow ox oy row b d)

/-- The origin column, `VX mod 64` (R109). -/
def State.originX (s : State) (x : Reg) : Nat := (s.getV x).toNat % 64

/-- The origin row, `VY mod 32` (R109). -/
def State.originY (s : State) (y : Reg) : Nat := (s.getV y).toNat % 32

/-- The sprite of `n` rows drawn at (VX, VY), on the framebuffer as it is and with no collision recorded. -/
def State.blit (s : State) (x y : Reg) (n : Nat) : Blit :=
  Blit.drawRows (s.originX x) (s.originY y) 0 (Memory.readBytes s.mem (s.effAddr 0) n) ⟨s.fb, false⟩

/-- `00E0` CLS (R107). -/
def execCls (s : State) : Host.Outcome State Fault Refusal := .next (s.setFb Framebuffer.clear)

/-- `DXYN` DRW: all 16 values of N; VF is written last, and always when the range check passes (R108, R113). -/
def execDrw (x y : Reg) (n : Nibble) (s : State) : Host.Outcome State Fault Refusal :=
  .next (s.checkRange (s.effAddr 0) n.toNat
    ((s.setFb (s.blit x y n.toNat).fb).setV VF (collisionFlag (s.blit x y n.toNat).collision)))

end Sys2Proof.Machine
end

