-- ==== Sys2Proof/Machine/Index.lean ====
section
/-! DEFINITION. Index register and memory transfer: `ANNN FX1E FX29 FX33 FX55 FX65` (42_index_memory.md). The whole range
of a transfer is checked before its first byte (20_memory.md R46), and I is never modified by a transfer (R98). -/

namespace Sys2Proof.Machine

/-- `ANNN` LD I, nnn (R99). -/
def execLdI (nnn : Addr12) (s : State) : Host.Outcome State Fault Refusal := .next (s.setI (zextAddr nnn))

/-- `FX1E` ADD I, Vx: 16 bits, no flag, no fault (R100). -/
def execAddI (x : Reg) (s : State) : Host.Outcome State Fault Refusal := .next (s.setI (s.indexSum x))

/-- `FX29` LD F, Vx: the address of glyph VX, no mask (R101). -/
def execLdF (x : Reg) (s : State) : Host.Outcome State Fault Refusal := .next (s.setI (glyphAddr (s.getV x)))

/-- `FX33` LD B, Vx: the three decimal digits of VX at I, I + 1, I + 2 (R102). -/
def execLdB (x : Reg) (s : State) : Host.Outcome State Fault Refusal :=
  .next (s.checkRange (s.effAddr 0) 3 (s.setMem (Memory.writeBytes s.mem (s.effAddr 0) (bcdDigits (s.getV x)))))

/-- `FX55` LD [I], Vx: V0..VX at I .. I + X (R103). -/
def execStRegs (x : Reg) (s : State) : Host.Outcome State Fault Refusal :=
  .next (s.checkRange (s.effAddr 0) (x.val + 1)
    (s.setMem (Memory.writeBytes s.mem (s.effAddr 0) (s.regsThrough x))))

/-- `FX65` LD Vx, [I]: V0..VX from I .. I + X (R104). -/
def execLdRegs (x : Reg) (s : State) : Host.Outcome State Fault Refusal :=
  .next (s.checkRange (s.effAddr 0) (x.val + 1) (s.setAllV (s.regsLoaded (s.effAddr 0) x)))

end Sys2Proof.Machine
end

