-- ==== Sys2Proof/Machine/Keypad.lean ====
section
/-! DEFINITION. Keypad, key wait, timers: `EX9E EXA1 FX0A FX07 FX15 FX18` (44_keypad_timers.md), the WaitingForKey step
and the timer engine. -/

namespace Sys2Proof.Machine

/-- A keypad skip: the key index is checked first (R118, 60_exceptions.md R142 (a)), then the skip is taken when the
key's level is `down`. -/
def State.skipIfKey (down : Bool) (x : Reg) (s : State) : State :=
  match keyIndex s.keyIndexMode (s.getV x) with
  | none   => s.raise .keyIndexOutOfRange (s.getV x).toNat
  | some k => s.skipIf (keyDown s.key k == down)

/-- `EX9E` SKP Vx (R116). -/
def execSkp (x : Reg) (s : State) : Host.Outcome State Fault Refusal := .next (s.skipIfKey true x)

/-- `EXA1` SKNP Vx (R117). -/
def execSknp (x : Reg) (s : State) : Host.Outcome State Fault Refusal := .next (s.skipIfKey false x)

/-- `FX0A` LD Vx, K: the tick only enters the wait; it does not look at the keypad (R119). -/
def execLdVxK (x : Reg) (s : State) : Host.Outcome State Fault Refusal := .next (s.setRun (.waitingForKey x))

/-- `FX07` LD Vx, DT (R122). -/
def execLdVxDt (x : Reg) (s : State) : Host.Outcome State Fault Refusal := .next (s.setV x s.dt)

/-- `FX15` LD DT, Vx (R123). -/
def execLdDtVx (x : Reg) (s : State) : Host.Outcome State Fault Refusal := .next (s.setDt (s.getV x))

/-- `FX18` LD ST, Vx; TONE follows by R126 (R124). -/
def execLdStVx (x : Reg) (s : State) : Host.Outcome State Fault Refusal := .next (s.setSt (s.getV x))

/-- `WaitStep(x, KEY)`: with no key down nothing changes; else the lowest pressed index goes to `V[x]` and the core runs
again. Nothing is fetched (R120, R121). -/
def State.waitStep (x : Reg) (keys : Keys) (s : State) : State :=
  match selectKey keys with
  | none   => s
  | some k => (s.setV x (BitVec.ofNat 8 k.val)).setRun .running

/-- One decrement with a floor at 0 (R125). -/
def countDown (t : Byte) : Byte := if t.toNat > 0 then t - 1 else t

/-- `TimerTick()`: each timer counts down, but not in Halted (R125, R127). -/
def State.timerTick (s : State) : State :=
  if s.run = .halted then s else (s.setDt (countDown s.dt)).setSt (countDown s.st)

end Sys2Proof.Machine
end

