-- ==== Sys2Proof/Machine/Cycle.lean ====
section
/-! DEFINITION. The events: the instruction tick with its fetch (30_encoding.md R66, R67), the timer tick, the warm reset
and the cold boot (70_reset_and_hazards.md R152, R153), and the order of events that arrive together (60_exceptions.md
R142 (b)). -/

namespace Sys2Proof.Machine

/-! ### The instruction tick -/

/-- The instruction word at `a`, big-endian: `MEM[a] ++ MEM[a + 1]` (20_memory.md R47). -/
def State.wordAt (s : State) (a : Nat) : Word := wordOfBytes (s.readByte a) (s.readByte (a + 1))

/-- The state a handler starts in: IR is the word at PC, PC is advanced by 2 (R67, 40_control_flow.md R73), and the
tick's inputs are held. -/
def State.fetched (keys : Keys) (rnd : Byte) (s : State) : State :=
  { s with ir := s.wordAt s.pc.toNat, pc := s.pc + 2, key := keys, rnd := rnd }

/-- Running: fetch, decode, dispatch. The bound comes first; where it fails nothing is fetched and PC keeps its value
(R67, 10_state.md R17). -/
def runInstr (keys : Keys) (rnd : Byte) (s : State) : Host.Outcome State Fault Refusal :=
  if s.pc.toNat + 2 > 0x0FFF then .next (s.raise .endOfMemory s.pc.toNat)
  else
    let t := s.fetched keys rnd
    match decodeWord t.ir with
    | .instr i   => exec i t
    | .unknown _ => execUnknown t
    | .truncated => execUnknown t

/-- `InstrTick(KEY, RND)` (R66): nothing in Halted, a poll of the keypad in WaitingForKey, one instruction in Running. -/
def instrTick (keys : Keys) (rnd : Byte) (s : State) : Host.Outcome State Fault Refusal :=
  match s.run with
  | .halted          => .next s
  | .waitingForKey x => .next (s.waitStep x keys)
  | .running         => runInstr keys rnd s

/-! ### Reset and boot -/

/-- `Reset` (70_reset_and_hazards.md R153): every register takes its boot value; MEM is not touched. The environment's
fields and the strap are not the core's and stay. -/
def State.warmReset (s : State) : State :=
  { State.reset with
    mem := s.mem, key := s.key, rnd := s.rnd, events := s.events, draws := s.draws, keyIndexMode := s.keyIndexMode }

/-- What the cold boot leads to. -/
inductive Boot where
  | started (s : State)
  /-- the loader's failure, code 1, with the image length as information; the core never starts (60_exceptions.md R138) -/
  | romTooLarge (length : Nat)
  deriving DecidableEq, Repr

/-- The cold boot of R152: zeroed memory, the font, the image at `0x200` if it is at most 3584 bytes, the registers at
their boot values. `mode` is the strap. -/
def coldBoot (mode : KeyIndexMode) (image : List Byte) : Boot :=
  if image.length > 4096 - 0x200 then .romTooLarge image.length
  else .started { State.reset with mem := Memory.writeBytes [] 0x200 image, keyIndexMode := mode }

/-! ### The environment -/

/-- Which event inputs the host asserts at one instant (10_state.md R30). -/
structure Pins where
  reset      : Bool
  instrTick  : Bool
  timerTick  : Bool
  key        : Keys
  rnd        : Byte
  deriving DecidableEq, Repr

/-- The events of one instant in the order the hardware performs them: Reset, then InstrTick, then TimerTick
(60_exceptions.md R142 (b), decision D29). -/
def Pins.events (p : Pins) : List Event :=
  (if p.reset then [Event.reset] else []) ++ (if p.instrTick then [Event.instrTick p.key p.rnd] else []) ++
    (if p.timerTick then [Event.timerTick] else [])

/-- The state with these events to come. -/
def State.withEvents (es : List Event) (s : State) : State := { s with events := es }

/-- The next event and the state without it. When the environment has fixed no further event, it is an instruction tick
whose inputs are free values (notes/assumptions/1.md, 2.md). -/
def State.nextEvent (s : State) : Event × State :=
  match s.events with
  | e :: es => (e, { s with events := es })
  | []      => (.instrTick (Config.freeKeys s.draws) (Config.freeByte s.draws), { s with draws := s.draws + 1 })

/-- What an event does to the machine (00_scope.md R10): each event is atomic. -/
def perform (e : Event) (s : State) : Host.Outcome State Fault Refusal :=
  match e with
  | .instrTick keys rnd => instrTick keys rnd s
  | .timerTick          => .next s.timerTick
  | .reset              => .next s.warmReset

/-! ### Placing a program's next word (for `withFetchWord`) -/

/-- Where the next instruction is fetched: PC, or the program base when PC is past the last fetchable address. -/
def State.fetchPc (s : State) : Word := if s.pc.toNat + 2 > 0x0FFF then 0x200 else s.pc

/-- The pending events with an instruction tick in front; the last inputs are kept where one has to be put there. -/
def State.eventsWithTick (s : State) : List Event :=
  match s.events with
  | []                   => []
  | .instrTick k r :: es => .instrTick k r :: es
  | .timerTick :: es     => .instrTick s.key s.rnd :: .timerTick :: es
  | .reset :: es         => .instrTick s.key s.rnd :: .reset :: es

/-- The state in which the very next step is an instruction tick in Running that fetches `w`. -/
def State.placeWord (w : Word) (s : State) : State :=
  { s with
    pc     := s.fetchPc
    mem    := Memory.writeBytes s.mem s.fetchPc.toNat [w.extractLsb' 8 8, w.extractLsb' 0 8]
    run    := .running
    events := s.eventsWithTick }

end Sys2Proof.Machine
end

