-- ==== Sys2Proof/Machine/Step.lean ====
section
/-! DEFINITION. One step: the next event of the environment, performed (00_scope.md R10). -/

namespace Sys2Proof.Machine

/-- One event: an instruction tick, a timer tick or a reset, whichever the environment delivers next. -/
def step (s : State) : Host.Outcome State Fault Refusal := perform s.nextEvent.1 s.nextEvent.2

/-- `s` with the word of the opcode table's numbering stored where the next step fetches it. -/
def State.withFetchWord (s : State) (nbits w : Nat) : State := s.placeWord (tableWord nbits w)

end Sys2Proof.Machine
end

