-- ==== Sys2Proof/Safety.lean ====
section
/-! DEFINITION. The terms claims are stated in: the machine's invariant, frames (which components may change), the halt a
fatal condition leads to, the PC discipline, and the end of a run. -/

namespace Sys2Proof.Machine

/-! ### The invariant -/

/-- The address part of the invariant: PC and every stack slot lie inside MEM (10_state.md R17, R38). The bound on the
slots is `0xFFF`, not the `0xFFE` of R75 and R77 (notes/assumptions/15.md). -/
def State.pcInRange (s : State) : Prop := s.pc.toNat ≤ 0xFFF ∧ ∀ k : Fin 16, (s.stack[k.val]).toNat ≤ 0xFFF

/-- FAULT and FAULT_INFO are 0 exactly until a condition halts the core, and `RomTooLarge` is never the core's
(10_state.md R26, 60_exceptions.md R138). -/
def State.faultAgrees (s : State) : Prop :=
  (s.run ≠ .halted → s.fault = .none ∧ s.faultInfo = 0) ∧
  (s.run = .halted → s.fault ≠ .none ∧ s.fault ≠ .romTooLarge)

/-- What holds in every state a run reaches: canonical memory, addresses in range, FAULT in agreement with RUN. -/
def State.Inv (s : State) : Prop := Memory.wf s.mem = true ∧ s.pcInRange ∧ s.faultAgrees

/-! ### Frames -/

/-- The components of the machine (10_state.md R13 to R26). `fault` stands for FAULT and FAULT_INFO, `stack` for the 16
slots. -/
inductive Comp where
  | v | i | pc | sp | stack | mem | dt | st | fb | ir | run | fault
  deriving DecidableEq, Repr

/-- Every component not listed is as before; so are the inputs, the pending events, the draws and the strap, always.
Memory is compared byte by byte. -/
def Frame (may : List Comp) (s t : State) : Prop :=
  (.v ∉ may → ∀ r, t.getV r = s.getV r) ∧
  (.i ∉ may → t.i = s.i) ∧
  (.pc ∉ may → t.pc = s.pc) ∧
  (.sp ∉ may → t.sp = s.sp) ∧
  (.stack ∉ may → t.stack = s.stack) ∧
  (.mem ∉ may → ∀ a, t.readByte a = s.readByte a) ∧
  (.dt ∉ may → t.dt = s.dt) ∧
  (.st ∉ may → t.st = s.st) ∧
  (.fb ∉ may → t.fb = s.fb) ∧
  (.ir ∉ may → t.ir = s.ir) ∧
  (.run ∉ may → t.run = s.run) ∧
  (.fault ∉ may → t.fault = s.fault ∧ t.faultInfo = s.faultInfo) ∧
  t.key = s.key ∧ t.rnd = s.rnd ∧ t.events = s.events ∧ t.draws = s.draws ∧ t.keyIndexMode = s.keyIndexMode

/-- Every V register but those listed is as before. -/
def KeepsV (but : List Reg) (s t : State) : Prop := ∀ r, r ∉ but → t.getV r = s.getV r

/-- Every byte of memory outside the `n` bytes at `a` reads as before. -/
def KeepsMem (a n : Nat) (s t : State) : Prop := ∀ b, ¬ (a ≤ b ∧ b < a + n) → t.readByte b = s.readByte b

/-- The core has halted with this cause and information, and nothing else has changed (60_exceptions.md R136). -/
def Halts (c : Cause) (info : Nat) (s t : State) : Prop :=
  t.run = .halted ∧ t.fault = c ∧ t.faultInfo = BitVec.ofNat 17 info ∧ Frame [.run, .fault] s t

/-! ### Which registers an instruction may write (10_state.md R13, R14) -/

/-- The V registers an instruction may write: its destination X (`6XNN 7XNN 8XY0`-`8XYE CXNN FX07`), V0..VX for `FX65`,
and VF for the six flag-writing instructions. `FX0A` writes VX only at a later tick (44_keypad_timers.md R119). -/
def MayWriteV (i : Instr) (r : Reg) : Prop :=
  match i with
  | .ldImm x _ | .addImm x _ | .rnd x _ | .ldVxDt x => r = x
  | .ldReg x _ | .orReg x _ | .andReg x _ | .xorReg x _ => r = x
  | .addReg x _ | .sub x _ | .shr x _ | .subn x _ | .shl x _ => r = x ∨ r = VF
  | .drw _ _ _ => r = VF
  | .ldRegs x => r.val ≤ x.val
  | .cls | .ret | .jp _ | .call _ | .seImm _ _ | .sneImm _ _ | .seReg _ _ | .sneReg _ _ | .ldI _ | .jpV0 _
  | .skp _ | .sknp _ | .ldVxK _ | .ldDtVx _ | .ldStVx _ | .addI _ | .ldF _ | .ldB _ | .stRegs _ => False

/-! ### Sprites (43_display.md R108 to R112) -/

/-- The sprite of `n` rows at I, drawn at (VX, VY), has a 1 bit at column `px`, row `py` of the framebuffer. -/
def SpriteHits (s : State) (x y : Reg) (n : Nibble) (px : Fin 64) (py : Fin 32) : Prop :=
  ∃ row col, row < n.toNat ∧ col < 8 ∧
    ((s.getV x).toNat % 64 + col) % 64 = px.val ∧ ((s.getV y).toNat % 32 + row) % 32 = py.val ∧
    (s.readByte (s.effAddr row)).getLsbD (7 - col) = true

/-! ### PC discipline (70_reset_and_hazards.md R161) -/

/-- If this instruction jumps, it jumps to an even address in this state (R38, R161). -/
def JumpsEven (i : Instr) (s : State) : Prop :=
  (∀ nnn, i = .jp nnn ∨ i = .call nnn → nnn.toNat % 2 = 0) ∧ (∀ nnn, i = .jpV0 nnn → s.indexedTarget nnn % 2 = 0)

/-- PC and every return address on the stack are even (10_state.md R16, R38). -/
def State.pcEven (s : State) : Prop := s.pc.toNat % 2 = 0 ∧ ∀ k : Fin 16, (s.stack[k.val]).toNat % 2 = 0

/-! ### The end of a run (70_reset_and_hazards.md R166) -/

/-- The parameter `END_OF_RUN` (R166, decision D27): a number of events, or arrival at a self-jump at an address. -/
inductive EndOfRun where
  | events (n : Nat)
  | selfJump (h : Addr12)
  deriving DecidableEq, Repr

/-- Has the run ended, `n` events after its start, in state `s`? -/
def EndOfRun.reached (e : EndOfRun) (n : Nat) (s : State) : Bool :=
  match e with
  | .events m   => n == m
  | .selfJump h => s.pc == zextAddr h && s.wordAt h.toNat == encode (.jp h)

end Sys2Proof.Machine
end

