-- ==== Sys2Proof/Certificates/Slice0/Obligations.lean ====
section
/-! DEFINITION. The statements for the provers. Each docstring names the rule of spec/ it formalises; a statement that rests
on a decision the spec marks as its own (D1 to D30) says so. -/

open Sys2Proof Sys2Proof.Machine

/-! ## Encoding -/

/-- R58: the six fields of a word are its bit ranges, as numbers; they overlap; and in terms of the two fetched bytes. -/
def Obligations.FieldsAreBitRanges : Prop :=
  (∀ w : Word,
    (fields w).c.toNat = w.toNat / 4096 ∧ (fields w).x.val = w.toNat / 256 % 16 ∧ (fields w).y.val = w.toNat / 16 % 16 ∧
    (fields w).n.toNat = w.toNat % 16 ∧ (fields w).nn.toNat = w.toNat % 256 ∧ (fields w).nnn.toNat = w.toNat % 4096 ∧
    (fields w).nn.toNat = 16 * (fields w).y.val + (fields w).n.toNat ∧
    (fields w).nnn.toNat = 256 * (fields w).x.val + 16 * (fields w).y.val + (fields w).n.toNat) ∧
  ∀ b0 b1 : Byte,
    (fields (wordOfBytes b0 b1)).c.toNat = b0.toNat / 16 ∧ (fields (wordOfBytes b0 b1)).x.val = b0.toNat % 16 ∧
    (fields (wordOfBytes b0 b1)).y.val = b1.toNat / 16 ∧ (fields (wordOfBytes b0 b1)).n.toNat = b1.toNat % 16 ∧
    (fields (wordOfBytes b0 b1)).nn = b1 ∧ (fields (wordOfBytes b0 b1)).nnn.toNat = b0.toNat % 16 * 256 + b1.toNat

/-- Decoding the word of any instruction gives that instruction back, with every operand: no bit of an encoding is
dropped, the ignored Y of the shifts included (R59, R63, R72). -/
def Obligations.DecodeOfEncodeIsIdentity : Prop := ∀ i : Instr, decodeWord (encode i) = .instr i

/-- Encoding what a word decodes to gives the word back: each word that is an instruction is one instruction's only
encoding (R57, R59, R63). -/
def Obligations.EncodeOfDecodeIsIdentity : Prop := ∀ (w : Word) (i : Instr), decodeWord w = .instr i → encode i = w

/-- R63: the 34 (mask, match) rows of the table; a word decodes to an instruction of row r exactly when
`w AND mask_r = match_r`; no word selects two rows (derived there from the table). -/
def Obligations.DecodeSelectsByMaskAndMatch : Prop :=
  (opcodeRows : List Row) =
    [⟨0xFFFF, 0x00E0⟩, ⟨0xFFFF, 0x00EE⟩, ⟨0xF000, 0x1000⟩, ⟨0xF000, 0x2000⟩, ⟨0xF000, 0x3000⟩, ⟨0xF000, 0x4000⟩] ++
    [⟨0xF00F, 0x5000⟩, ⟨0xF000, 0x6000⟩, ⟨0xF000, 0x7000⟩, ⟨0xF00F, 0x8000⟩, ⟨0xF00F, 0x8001⟩, ⟨0xF00F, 0x8002⟩] ++
    [⟨0xF00F, 0x8003⟩, ⟨0xF00F, 0x8004⟩, ⟨0xF00F, 0x8005⟩, ⟨0xF00F, 0x8006⟩, ⟨0xF00F, 0x8007⟩, ⟨0xF00F, 0x800E⟩] ++
    [⟨0xF00F, 0x9000⟩, ⟨0xF000, 0xA000⟩, ⟨0xF000, 0xB000⟩, ⟨0xF000, 0xC000⟩, ⟨0xF000, 0xD000⟩, ⟨0xF0FF, 0xE09E⟩] ++
    [⟨0xF0FF, 0xE0A1⟩, ⟨0xF0FF, 0xF007⟩, ⟨0xF0FF, 0xF00A⟩, ⟨0xF0FF, 0xF015⟩, ⟨0xF0FF, 0xF018⟩, ⟨0xF0FF, 0xF01E⟩] ++
    [⟨0xF0FF, 0xF029⟩, ⟨0xF0FF, 0xF033⟩, ⟨0xF0FF, 0xF055⟩, ⟨0xF0FF, 0xF065⟩] ∧
  (∀ (w : Word) (i : Instr), decodeWord w = .instr i → i.row ∈ opcodeRows ∧ w &&& i.row.mask = i.row.pattern) ∧
  (∀ (w : Word) (r : Row), r ∈ opcodeRows → w &&& r.mask = r.pattern → ∃ i, decodeWord w = .instr i ∧ i.row = r) ∧
  (∀ (w : Word) (r r' : Row), r ∈ opcodeRows → r' ∈ opcodeRows → w &&& r.mask = r.pattern → w &&& r'.mask = r'.pattern →
    r = r')

/-- R65 (derived there from R63; classes 0, 5, 9 rest on decision D10): which words are unknown, by set. Every other word
is an instruction, since decoding a word never answers anything else (R68). -/
def Obligations.UnknownWordsAreTheSixSets : Prop :=
  ∀ w : Word,
    (decodeWord w = .unknown .class0 ↔ w.toNat / 4096 = 0x0 ∧ w ≠ 0x00E0 ∧ w ≠ 0x00EE) ∧
    (decodeWord w = .unknown .class5 ↔ w.toNat / 4096 = 0x5 ∧ w.toNat % 16 ≠ 0) ∧
    (decodeWord w = .unknown .class8 ↔ w.toNat / 4096 = 0x8 ∧ w.toNat % 16 ∈ [0x8, 0x9, 0xA, 0xB, 0xC, 0xD, 0xF]) ∧
    (decodeWord w = .unknown .class9 ↔ w.toNat / 4096 = 0x9 ∧ w.toNat % 16 ≠ 0) ∧
    (decodeWord w = .unknown .classE ↔ w.toNat / 4096 = 0xE ∧ w.toNat % 256 ∉ [0x9E, 0xA1]) ∧
    (decodeWord w = .unknown .classF ↔
      w.toNat / 4096 = 0xF ∧ w.toNat % 256 ∉ [0x07, 0x0A, 0x15, 0x18, 0x1E, 0x29, 0x33, 0x55, 0x65]) ∧
    decodeWord w ≠ .truncated

/-- Words written out from the spec's vectors (95_test_vectors.md part 2 E) decode to what that table says. -/
def Obligations.WrittenOutWordsDecode : Prop :=
  decodeWord 0x00E0 = .instr .cls ∧ decodeWord 0x00EE = .instr .ret ∧ decodeWord 0x1ABC = .instr (.jp 0xABC) ∧
  decodeWord 0x5120 = .instr (.seReg 1 2) ∧ decodeWord 0x8AB4 = .instr (.addReg 10 11) ∧
  decodeWord 0xD125 = .instr (.drw 1 2 5) ∧ decodeWord 0xE19E = .instr (.skp 1) ∧
  decodeWord 0xF065 = .instr (.ldRegs 0) ∧ decodeWord 0x0000 = .unknown .class0 ∧ decodeWord 0x5121 = .unknown .class5 ∧
  decodeWord 0xFFFF = .unknown .classF

/-! ## The step and the events -/

/-- A step runs the decoded instruction (R66, R67, R73): with an instruction tick next, in Running, below the end of
memory, the step is `exec` of the instruction the two bytes at PC decode to, in the state with IR loaded, PC advanced by
2, and the tick's inputs held. The second clause is the model's own tick when no event is pending: its inputs are the
free values of notes/assumptions/2.md, whatever they are. -/
def Obligations.StepRunsDecodedInstruction : Prop :=
  ∀ (s : State) (i : Instr), s.run = .running → s.pc.toNat + 2 ≤ 0xFFF →
    decodeWord (s.readByte s.pc.toNat ++ s.readByte (s.pc.toNat + 1)) = .instr i →
    (∀ k r es, s.events = .instrTick k r :: es →
      step s = exec i { s with
        ir := s.readByte s.pc.toNat ++ s.readByte (s.pc.toNat + 1), pc := s.pc + 2, key := k, rnd := r, events := es }) ∧
    (s.events = [] →
      step s = exec i { s with
        ir := s.readByte s.pc.toNat ++ s.readByte (s.pc.toNat + 1), pc := s.pc + 2,
        key := Config.freeKeys s.draws, rnd := Config.freeByte s.draws, draws := s.draws + 1 })

/-- R64: a word that matches no pattern is a no-op that still advances PC by 2: but for IR, which the fetch loads, and the
tick's inputs, nothing else changes. -/
def Obligations.UnknownWordOnlyAdvancesPc : Prop :=
  ∀ (s : State) (u : UnknownSet) (k : Keys) (r : Byte) (es : List Event), s.run = .running → s.pc.toNat + 2 ≤ 0xFFF →
    s.events = .instrTick k r :: es →
    decodeWord (s.readByte s.pc.toNat ++ s.readByte (s.pc.toNat + 1)) = .unknown u →
    ∃ t, step s = .next t ∧ t.pc.toNat = s.pc.toNat + 2 ∧
      t.ir = s.readByte s.pc.toNat ++ s.readByte (s.pc.toNat + 1) ∧
      Frame [.pc, .ir] { s with key := k, rnd := r, events := es } t

/-- R17, R67, R137 (the exact point is decision D6): a fetch with PC + 2 above `0xFFF` fetches nothing and halts with
`EndOfMemory` of PC; PC and every other register keep their values. -/
def Obligations.FetchPastEndOfMemoryHalts : Prop :=
  ∀ (s : State) (k : Keys) (r : Byte) (es : List Event), s.run = .running → s.pc.toNat + 2 > 0xFFF →
    s.events = .instrTick k r :: es →
    ∃ t, step s = .next t ∧ Halts .endOfMemory s.pc.toNat { s with events := es } t

/-- R144, R127 (decisions D12, D17): in Halted an instruction tick and a timer tick change nothing. -/
def Obligations.HaltedIgnoresTicks : Prop :=
  ∀ (s : State) (e : Event) (es : List Event), s.run = .halted → s.events = e :: es → e ≠ .reset →
    step s = .next { s with events := es }

/-- R153 (decisions D20, D21): in every run state a Reset gives every register its boot value and leaves MEM alone. -/
def Obligations.ResetEventRestoresRegisters : Prop :=
  ∀ (s : State) (es : List Event), s.events = .reset :: es →
    ∃ t, step s = .next t ∧ t.pc = 0x200 ∧ t.sp = 0 ∧ t.dt = 0 ∧ t.st = 0 ∧ (∀ r, t.getV r = 0) ∧ t.i = 0 ∧
      (∀ k : Fin 16, t.stack[k.val] = 0) ∧ (∀ px py, Framebuffer.pixel t.fb px py = false) ∧ t.ir = 0 ∧
      t.run = .running ∧ t.fault = .none ∧ t.faultInfo = 0 ∧ t.tone = false ∧ (∀ a, t.readByte a = s.readByte a) ∧
      t.events = es

/-- R125 (the Halted case is R127, decision D17): outside Halted a timer tick lowers each timer by one with a floor at 0,
independently, and changes nothing else. -/
def Obligations.TimerTickCountsBothTimersDown : Prop :=
  ∀ (s : State) (es : List Event), s.run ≠ .halted → s.events = .timerTick :: es →
    ∃ t, step s = .next t ∧ t.dt.toNat = s.dt.toNat - 1 ∧ t.st.toNat = s.st.toNat - 1 ∧
      (t.tone = true ↔ s.st.toNat > 1) ∧ Frame [.dt, .st] { s with events := es } t

/-- R120, R121 (decision D15): in WaitingForKey(x) an instruction tick with no key down changes nothing; with a key down
it puts the lowest pressed index into Vx and returns to Running, and fetches nothing. -/
def Obligations.WaitEndsWithLowestPressedKey : Prop :=
  ∀ (s : State) (x : Reg) (k : Keys) (r : Byte) (es : List Event),
    s.run = .waitingForKey x → s.events = .instrTick k r :: es →
    (k = 0 → step s = .next { s with events := es }) ∧
    (k ≠ 0 → ∃ t, ∃ j : Fin 16, step s = .next t ∧ k.getLsbD j.val = true ∧
      (∀ j' : Fin 16, j' < j → k.getLsbD j'.val = false) ∧ (t.getV x).toNat = j.val ∧ t.run = .running ∧
      KeepsV [x] s t ∧ Frame [.v, .run] { s with events := es } t)

/-- R119, R120, R127 (source scenario §8; decisions D15, D17): the wait lasts through any number of timer ticks and of
instruction ticks with no key down, in any order, while the timers count; the first tick with a key down ends it. `run` is
the host's: that many steps. -/
def Obligations.WaitLastsThroughIdleTicks : Prop :=
  ∀ (idle : List Event) (s : State) (x : Reg) (k : Keys) (r : Byte) (es : List Event),
    s.run = .waitingForKey x → s.events = idle ++ .instrTick k r :: es → k ≠ 0 →
    (∀ e ∈ idle, e = .timerTick ∨ ∃ b, e = .instrTick 0 b) →
    ∃ t u, Sys2Proof.core.run idle.length s = .next t ∧ t.run = .waitingForKey x ∧
      t.dt.toNat = s.dt.toNat - idle.count .timerTick ∧ t.st.toNat = s.st.toNat - idle.count .timerTick ∧
      Frame [.dt, .st] { s with events := .instrTick k r :: es } t ∧
      step t = .next u ∧ u.run = .running ∧ u.pc = s.pc ∧ k.getLsbD (u.getV x).toNat = true

/-- R37: the state after reset (V, I, STACK, FB, IR are decision D20; FAULT is D13; RUN is derived in R25). -/
def Obligations.ResetStateHoldsBootValues : Prop :=
  State.reset.pc = 0x200 ∧ State.reset.sp = 0 ∧ State.reset.dt = 0 ∧ State.reset.st = 0 ∧
  (∀ r, State.reset.getV r = 0) ∧ State.reset.i = 0 ∧ (∀ k : Fin 16, State.reset.stack[k.val] = 0) ∧
  (∀ px py, Framebuffer.pixel State.reset.fb px py = false) ∧ State.reset.ir = 0 ∧ State.reset.run = .running ∧
  State.reset.fault = .none ∧ State.reset.faultInfo = 0

/-- R41, R42 (the font bytes are general knowledge, G1): at boot memory is 0 but for the font at `0x050`..`0x09F`. -/
def Obligations.BootMemoryIsZeroButTheFont : Prop :=
  (∀ a, a < 0x050 ∨ 0x09F < a → State.reset.readByte a = 0) ∧
  (List.range 80).map (fun k => (State.reset.readByte (0x050 + k)).toNat) =
    [0xF0, 0x90, 0x90, 0x90, 0xF0] ++ [0x20, 0x60, 0x20, 0x20, 0x70] ++ [0xF0, 0x10, 0xF0, 0x80, 0xF0] ++
    [0xF0, 0x10, 0xF0, 0x10, 0xF0] ++ [0x90, 0x90, 0xF0, 0x10, 0x10] ++ [0xF0, 0x80, 0xF0, 0x10, 0xF0] ++
    [0xF0, 0x80, 0xF0, 0x90, 0xF0] ++ [0xF0, 0x10, 0x20, 0x40, 0x40] ++ [0xF0, 0x90, 0xF0, 0x90, 0xF0] ++
    [0xF0, 0x90, 0xF0, 0x10, 0xF0] ++ [0xF0, 0x90, 0xF0, 0x90, 0x90] ++ [0xE0, 0x90, 0xE0, 0x90, 0xE0] ++
    [0xF0, 0x80, 0x80, 0x80, 0xF0] ++ [0xE0, 0x90, 0x90, 0x90, 0xE0] ++ [0xF0, 0x80, 0xF0, 0x80, 0xF0] ++
    [0xF0, 0x80, 0xF0, 0x80, 0x80]

/-- R138, R152, R156 (decisions D1, D20, D30): an image of at most 3584 bytes lies verbatim at `0x200`, the rest of memory
and the registers are as after reset, and the state meets the invariant; a longer one is `RomTooLarge`. -/
def Obligations.ColdBootLoadsImageVerbatim : Prop :=
  ∀ (mode : KeyIndexMode) (image : List Byte),
    (image.length ≤ 3584 → ∃ t, coldBoot mode image = .started t ∧
      (∀ (j : Nat) (h : j < image.length), t.readByte (0x200 + j) = image[j]) ∧
      KeepsMem 0x200 image.length State.reset t ∧ Frame [.mem] { State.reset with keyIndexMode := mode } t ∧ t.Inv) ∧
    (image.length > 3584 → coldBoot mode image = .romTooLarge image.length)

/-- R128, R142 (b) (decision D29): for every setting of the three event inputs at one instant, exactly the asserted events
are performed, each once: Reset, then InstrTick, then TimerTick. That a Reset does not swallow a tick of its instant is the
model's choice (notes/assumptions/11.md). The second clause says what performing them is: where they are the next events,
that many steps take `s` through the reset, the tick and the countdown in this order, leaving out the unasserted. -/
def Obligations.SimultaneousEventsAreOrdered : Prop :=
  (∀ (k : Keys) (r : Byte),
    (Pins.mk false false false k r).events = [] ∧
    (Pins.mk false false true k r).events = [.timerTick] ∧
    (Pins.mk false true false k r).events = [.instrTick k r] ∧
    (Pins.mk false true true k r).events = [.instrTick k r, .timerTick] ∧
    (Pins.mk true false false k r).events = [.reset] ∧
    (Pins.mk true false true k r).events = [.reset, .timerTick] ∧
    (Pins.mk true true false k r).events = [.reset, .instrTick k r] ∧
    (Pins.mk true true true k r).events = [.reset, .instrTick k r, .timerTick]) ∧
  ∀ (reset tick timer : Bool) (k : Keys) (r : Byte) (s : State) (es : List Event),
    s.events = (Pins.mk reset tick timer k r).events ++ es →
    ∃ u v t : State,
      u = (if reset then s.warmReset else s) ∧
      (if tick then instrTick k r (u.withEvents es) = .next v else v = u.withEvents es) ∧
      t = (if timer then v.timerTick else v) ∧
      Sys2Proof.core.run (Pins.mk reset tick timer k r).events.length s = .next (t.withEvents es)

/-- No step stops: the machine's events are total (R64, R68, R120, R125, R136, R153), so there is no fault and no
refusal. -/
def Obligations.EveryStepAnswersNext : Prop := ∀ s : State, ∃ t, step s = .next t

/-! ## Control transfer -/

/-- R76: `1NNN` is `0x1 ++ NNN` and loads PC with NNN, any NNN; nothing else changes. -/
def Obligations.JumpLoadsPc : Prop :=
  ∀ nnn : Addr12, decodeWord (0x1#4 ++ nnn) = .instr (.jp nnn) ∧
    ∀ s : State, ∃ t, exec (.jp nnn) s = .next t ∧ t.pc.toNat = nnn.toNat ∧ Frame [.pc] s t

/-- R77, R133 (slot layout D11; the halt D12): below 16 entries `2NNN` stores the advanced PC in STACK[SP], increments SP
and loads PC with NNN; with SP = 16 it halts with `StackOverflow` and pushes nothing. -/
def Obligations.CallPushesReturnAddress : Prop :=
  ∀ (nnn : Addr12) (s : State),
    (∀ h : s.sp.val < 16, ∃ t, exec (.call nnn) s = .next t ∧ t.stack[s.sp.val] = s.pc ∧ t.sp.val = s.sp.val + 1 ∧
      t.pc.toNat = nnn.toNat ∧ (∀ k : Fin 16, k.val ≠ s.sp.val → t.stack[k.val] = s.stack[k.val]) ∧
      Frame [.pc, .sp, .stack] s t) ∧
    (s.sp.val = 16 → ∃ t, exec (.call nnn) s = .next t ∧ Halts .stackOverflow 0 s t)

/-- R75, R134 (slot layout D11; the halt D12): with SP above 0 `00EE` decrements SP and loads PC from STACK[SP], the slots
unchanged; with SP = 0 it halts with `StackUnderflow`. -/
def Obligations.ReturnPopsIntoPc : Prop :=
  ∀ s : State,
    (∀ h : 0 < s.sp.val, ∃ t, exec .ret s = .next t ∧ t.sp.val = s.sp.val - 1 ∧ t.pc = s.stack[s.sp.val - 1] ∧
      Frame [.pc, .sp] s t) ∧
    (s.sp.val = 0 → ∃ t, exec .ret s = .next t ∧ Halts .stackUnderflow 0 s t)

/-- R75 (source property S7): "`00EE` immediately after `2NNN` restores PC to the instruction following the original
call". Between the two only the stack and SP must be kept. -/
def Obligations.ReturnAfterCallRestoresPc : Prop :=
  ∀ (nnn : Addr12) (s : State), s.sp.val < 16 →
    ∃ t, exec (.call nnn) s = .next t ∧
      ∀ t' : State, t'.stack = t.stack → t'.sp = t.sp →
        ∃ u, exec .ret t' = .next u ∧ u.pc = s.pc ∧ u.sp = s.sp ∧ u.run = t'.run

/-- R74, R78 to R81 (the check at the end of memory is decision D6): the four register and immediate skips. When the
condition holds PC advances by 2 once more, or, where PC + 2 passes `0xFFF`, the core halts with `EndOfMemory` of PC; when
it does not hold nothing changes. -/
def Obligations.SkipsAdvanceExactlyOneInstruction : Prop :=
  ∀ (x y : Reg) (nn : Byte) (s : State) (i : Instr) (cond : Prop),
    ((i = .seImm x nn ∧ (cond ↔ s.getV x = nn)) ∨ (i = .sneImm x nn ∧ (cond ↔ s.getV x ≠ nn)) ∨
      (i = .seReg x y ∧ (cond ↔ s.getV x = s.getV y)) ∨ (i = .sneReg x y ∧ (cond ↔ s.getV x ≠ s.getV y))) →
    ∃ t, exec i s = .next t ∧
      (cond → s.pc.toNat + 2 ≤ 0xFFF → t.pc.toNat = s.pc.toNat + 2 ∧ Frame [.pc] s t) ∧
      (cond → s.pc.toNat + 2 > 0xFFF → Halts .endOfMemory s.pc.toNat s t) ∧
      (¬ cond → Frame [] s t)

/-- R82, R135 (the check is decision D7): `BNNN` loads PC with NNN + V0 when the sum is at most `0xFFF`, else halts with
`MemoryOutOfBounds` of the sum. -/
def Obligations.IndexedJumpIsChecked : Prop :=
  ∀ (nnn : Addr12) (s : State),
    (nnn.toNat + (s.getV V0).toNat ≤ 0xFFF → ∃ t, exec (.jpV0 nnn) s = .next t ∧
      t.pc.toNat = nnn.toNat + (s.getV V0).toNat ∧ Frame [.pc] s t) ∧
    (nnn.toNat + (s.getV V0).toNat > 0xFFF → ∃ t, exec (.jpV0 nnn) s = .next t ∧
      Halts .memoryOutOfBounds (nnn.toNat + (s.getV V0).toNat) s t)

/-! ## Load and arithmetic -/

/-- R84: `6XNN` is `0x6 ++ X ++ NN` and loads VX with NN, for every X; nothing else changes. -/
def Obligations.LoadImmediateWritesVx : Prop :=
  ∀ (x : Reg) (nn : Byte), decodeWord (0x6#4 ++ regField x ++ nn) = .instr (.ldImm x nn) ∧
    ∀ s : State, ∃ t, exec (.ldImm x nn) s = .next t ∧ t.getV x = nn ∧ KeepsV [x] s t ∧ Frame [.v] s t

/-- R85: `7XNN` is `0x7 ++ X ++ NN` and adds NN to VX modulo 256; VF changes only as the destination. -/
def Obligations.AddImmediateWrapsWithoutFlag : Prop :=
  ∀ (x : Reg) (nn : Byte), decodeWord (0x7#4 ++ regField x ++ nn) = .instr (.addImm x nn) ∧
    ∀ s : State, ∃ t, exec (.addImm x nn) s = .next t ∧ (t.getV x).toNat = ((s.getV x).toNat + nn.toNat) % 256 ∧
      KeepsV [x] s t ∧ Frame [.v] s t

/-- R86: `8XY0` is `0x8 ++ X ++ Y ++ 0x0` and copies VY to VX. -/
def Obligations.LoadRegisterCopiesVy : Prop :=
  ∀ x y : Reg, decodeWord (0x8#4 ++ regField x ++ regField y ++ 0x0#4) = .instr (.ldReg x y) ∧
    ∀ s : State, ∃ t, exec (.ldReg x y) s = .next t ∧ t.getV x = s.getV y ∧ KeepsV [x] s t ∧ Frame [.v] s t

/-- R87 to R89 (VF unwritten is decision D8): `8XY1 8XY2 8XY3` are the bitwise OR, AND, XOR into VX and write nothing
else. -/
def Obligations.LogicIsBitwiseIntoVx : Prop :=
  ∀ (x y : Reg) (s : State),
    (∃ t, exec (.orReg x y) s = .next t ∧
      (∀ k, (t.getV x).getLsbD k = ((s.getV x).getLsbD k || (s.getV y).getLsbD k)) ∧ KeepsV [x] s t ∧ Frame [.v] s t) ∧
    (∃ t, exec (.andReg x y) s = .next t ∧
      (∀ k, (t.getV x).getLsbD k = ((s.getV x).getLsbD k && (s.getV y).getLsbD k)) ∧ KeepsV [x] s t ∧ Frame [.v] s t) ∧
    (∃ t, exec (.xorReg x y) s = .next t ∧
      (∀ k, (t.getV x).getLsbD k = ((s.getV x).getLsbD k ^^ (s.getV y).getLsbD k)) ∧ KeepsV [x] s t ∧ Frame [.v] s t)

/-- R90 (X = F is decision D9): `8XY4`. VF is 1 exactly when the sum passes 255, for every X; VX is the sum modulo 256
unless X is F, where the flag wins. -/
def Obligations.AddRegisterSetsCarry : Prop :=
  ∀ (x y : Reg) (s : State), ∃ t, exec (.addReg x y) s = .next t ∧
    (t.getV VF).toNat = (if (s.getV x).toNat + (s.getV y).toNat > 255 then 1 else 0) ∧
    (x ≠ VF → (t.getV x).toNat = ((s.getV x).toNat + (s.getV y).toNat) % 256) ∧ KeepsV [x, VF] s t ∧ Frame [.v] s t

/-- R91, R93 (X = F is decision D9): `8XY5` is VX − VY and `8XY7` is VY − VX, modulo 256; VF is 0 exactly on a borrow. -/
def Obligations.SubtractionsSetNoBorrow : Prop :=
  ∀ (x y : Reg) (s : State),
    (∃ t, exec (.sub x y) s = .next t ∧
      (t.getV VF).toNat = (if (s.getV y).toNat > (s.getV x).toNat then 0 else 1) ∧
      (x ≠ VF → ((t.getV x).toNat : Int) = ((s.getV x).toNat - (s.getV y).toNat : Int) % 256) ∧
      KeepsV [x, VF] s t ∧ Frame [.v] s t) ∧
    (∃ t, exec (.subn x y) s = .next t ∧
      (t.getV VF).toNat = (if (s.getV x).toNat > (s.getV y).toNat then 0 else 1) ∧
      (x ≠ VF → ((t.getV x).toNat : Int) = ((s.getV y).toNat - (s.getV x).toNat : Int) % 256) ∧
      KeepsV [x, VF] s t ∧ Frame [.v] s t)

/-- R92, R94, R72 (X = F is decision D9): the shifts move VX by one and put the bit shifted out into VF; Y plays no
part. -/
def Obligations.ShiftsPutBitShiftedOutIntoVf : Prop :=
  ∀ (x y : Reg) (s : State),
    (∃ t, exec (.shr x y) s = .next t ∧ (t.getV VF).toNat = (s.getV x).toNat % 2 ∧
      (x ≠ VF → (t.getV x).toNat = (s.getV x).toNat / 2) ∧ KeepsV [x, VF] s t ∧ Frame [.v] s t) ∧
    (∃ t, exec (.shl x y) s = .next t ∧ (t.getV VF).toNat = (s.getV x).toNat / 128 ∧
      (x ≠ VF → (t.getV x).toNat = (s.getV x).toNat * 2 % 256) ∧ KeepsV [x, VF] s t ∧ Frame [.v] s t)

/-- R95 (the byte as an input of the tick is decision D19): `CXNN` gives VX the tick's random byte AND NN, so no bit
outside NN is ever set. -/
def Obligations.RandomIsMaskedByNn : Prop :=
  ∀ (x : Reg) (nn : Byte) (s : State), ∃ t, exec (.rnd x nn) s = .next t ∧
    (∀ k, (t.getV x).getLsbD k = (s.rnd.getLsbD k && nn.getLsbD k)) ∧ t.getV x &&& ~~~nn = 0 ∧
    KeepsV [x] s t ∧ Frame [.v] s t

/-! ## Index register and memory -/

/-- R99: `ANNN` is `0xA ++ NNN` and loads I with NNN. -/
def Obligations.LoadIndexWritesI : Prop :=
  ∀ nnn : Addr12, decodeWord (0xA#4 ++ nnn) = .instr (.ldI nnn) ∧
    ∀ s : State, ∃ t, exec (.ldI nnn) s = .next t ∧ t.i.toNat = nnn.toNat ∧ Frame [.i] s t

/-- R100: `FX1E` is `0xF ++ X ++ 0x1E` and adds VX to I modulo 65536; no flag, no fault. -/
def Obligations.AddToIndexWrapsAtSixteenBits : Prop :=
  ∀ x : Reg, decodeWord (0xF#4 ++ regField x ++ 0x1E#8) = .instr (.addI x) ∧
    ∀ s : State, ∃ t, exec (.addI x) s = .next t ∧ t.i.toNat = (s.i.toNat + (s.getV x).toNat) % 65536 ∧ Frame [.i] s t

/-- R101: `FX29` is `0xF ++ X ++ 0x29` and points I at `0x050 + 5 × VX`, the whole VX. -/
def Obligations.LoadFontAddressUsesWholeVx : Prop :=
  ∀ x : Reg, decodeWord (0xF#4 ++ regField x ++ 0x29#8) = .instr (.ldF x) ∧
    ∀ s : State, ∃ t, exec (.ldF x) s = .next t ∧ t.i.toNat = 0x050 + 5 * (s.getV x).toNat ∧ Frame [.i] s t

/-- R102, R135 (the whole range before the first byte is decision D28): `FX33` stores the three decimal digits of VX at
I, I + 1, I + 2 and no other byte; where I + 2 passes `0xFFF` it halts with `MemoryOutOfBounds` of it and stores
nothing. -/
def Obligations.BcdStoresThreeDigits : Prop :=
  ∀ (x : Reg) (s : State), Memory.wf s.mem = true →
    (s.effAddr 2 ≤ 0xFFF → ∃ t, exec (.ldB x) s = .next t ∧
      (t.readByte (s.effAddr 0)).toNat = (s.getV x).toNat / 100 ∧
      (t.readByte (s.effAddr 1)).toNat = (s.getV x).toNat / 10 % 10 ∧
      (t.readByte (s.effAddr 2)).toNat = (s.getV x).toNat % 10 ∧
      KeepsMem (s.effAddr 0) 3 s t ∧ Frame [.mem] s t) ∧
    (s.effAddr 2 > 0xFFF → ∃ t, exec (.ldB x) s = .next t ∧ Halts .memoryOutOfBounds (s.effAddr 2) s t)

/-- R103, R135 (decision D28): `FX55` stores V0..VX at I .. I + X and no other byte, and I is unchanged; where I + X passes
`0xFFF` it halts with `MemoryOutOfBounds` of it. -/
def Obligations.StoreRegistersWritesV0ThroughVx : Prop :=
  ∀ (x : Reg) (s : State), Memory.wf s.mem = true →
    (s.effAddr x.val ≤ 0xFFF → ∃ t, exec (.stRegs x) s = .next t ∧
      (∀ r : Reg, r.val ≤ x.val → t.readByte (s.effAddr r.val) = s.getV r) ∧
      KeepsMem (s.effAddr 0) (x.val + 1) s t ∧ Frame [.mem] s t) ∧
    (s.effAddr x.val > 0xFFF → ∃ t, exec (.stRegs x) s = .next t ∧ Halts .memoryOutOfBounds (s.effAddr x.val) s t)

/-- R104, R135 (decision D28): `FX65` loads V0..VX from I .. I + X, the other registers, I and memory unchanged; where
I + X passes `0xFFF` it halts with `MemoryOutOfBounds` of it. -/
def Obligations.LoadRegistersReadsV0ThroughVx : Prop :=
  ∀ (x : Reg) (s : State),
    (s.effAddr x.val ≤ 0xFFF → ∃ t, exec (.ldRegs x) s = .next t ∧
      (∀ r : Reg, r.val ≤ x.val → t.getV r = s.readByte (s.effAddr r.val)) ∧
      (∀ r : Reg, r.val > x.val → t.getV r = s.getV r) ∧ Frame [.v] s t) ∧
    (s.effAddr x.val > 0xFFF → ∃ t, exec (.ldRegs x) s = .next t ∧ Halts .memoryOutOfBounds (s.effAddr x.val) s t)

/-- R104 (source property S3): `FX55` then `FX65` with the same X and I restores V0..VX exactly, whatever happened to the
registers in between, and I is unchanged by either. -/
def Obligations.StoreThenLoadRestoresRegisters : Prop :=
  ∀ (x : Reg) (s : State), Memory.wf s.mem = true → s.effAddr x.val ≤ 0xFFF →
    ∃ t, exec (.stRegs x) s = .next t ∧ t.i = s.i ∧
      ∀ t' : State, t'.mem = t.mem → t'.i = t.i →
        ∃ u, exec (.ldRegs x) t' = .next u ∧ u.i = s.i ∧ ∀ r : Reg, r.val ≤ x.val → u.getV r = s.getV r

/-- R54, R158: a store is seen by the very next fetch. When the word at PC is an `FX55` with X ≥ 1 and I is the address of
the next instruction, the next instruction tick runs the word V0 ++ V1. -/
def Obligations.StoredWordIsFetchedNext : Prop :=
  ∀ (s : State) (x : Reg) (j : Instr) (k k' : Keys) (r r' : Byte) (es : List Event),
    Memory.wf s.mem = true → s.run = .running → s.events = .instrTick k r :: .instrTick k' r' :: es →
    decodeWord (s.readByte s.pc.toNat ++ s.readByte (s.pc.toNat + 1)) = .instr (.stRegs x) →
    1 ≤ x.val → s.i.toNat = s.pc.toNat + 2 → s.pc.toNat + 4 ≤ 0xFFF → s.effAddr x.val ≤ 0xFFF →
    decodeWord (s.getV 0 ++ s.getV 1) = .instr j →
    ∃ t u, step s = .next t ∧ u.pc.toNat = s.pc.toNat + 4 ∧ u.ir = (s.getV 0 ++ s.getV 1 : Word) ∧ u.key = k' ∧ u.rnd = r' ∧
      step t = exec j u

/-! ## Display -/

/-- R107: the word `0x00E0` clears all 2048 pixels and changes nothing else. -/
def Obligations.ClearTurnsEveryPixelOff : Prop :=
  decodeWord 0x00E0 = .instr .cls ∧
  ∀ s : State, ∃ t, exec .cls s = .next t ∧ (∀ px py, Framebuffer.pixel t.fb px py = false) ∧ Frame [.fb] s t

/-- R108 to R113 (the whole-range check is D28, VF as an operand D9; the parallel form is derived in R112): `DXYN` XORs
the sprite into the framebuffer with wraparound, every pixel by its old value, and sets VF to 1 exactly when a sprite bit
of 1 meets a lit pixel, for every N, 0 included. Where N ≥ 1 and the last sprite byte lies above `0xFFF` it halts with
`MemoryOutOfBounds` of that address and draws nothing. -/
def Obligations.DrawXorsSpriteAndReportsCollision : Prop :=
  ∀ (x y : Reg) (n : Nibble) (s : State),
    (n = 0 ∨ s.effAddr (n.toNat - 1) ≤ 0xFFF → ∃ t, exec (.drw x y n) s = .next t ∧
      (∀ px py, Framebuffer.pixel t.fb px py = true ↔
        ¬ (Framebuffer.pixel s.fb px py = true ↔ SpriteHits s x y n px py)) ∧
      ((t.getV VF).toNat = 1 ∨ (t.getV VF).toNat = 0) ∧
      ((t.getV VF).toNat = 1 ↔ ∃ px py, SpriteHits s x y n px py ∧ Framebuffer.pixel s.fb px py = true) ∧
      KeepsV [VF] s t ∧ Frame [.v, .fb] s t) ∧
    (n ≠ 0 ∧ s.effAddr (n.toNat - 1) > 0xFFF → ∃ t, exec (.drw x y n) s = .next t ∧
      Halts .memoryOutOfBounds (s.effAddr (n.toNat - 1)) s t)

/-- R108, R113 (source property S5): the same sprite drawn twice at the same place restores the framebuffer, and the
second draw reports a collision exactly when a 1 bit of the sprite lay on a pixel that was off before the first. (R113 says
"provided the sprite has at least one 1 bit", which R108's algorithm gives only where the sprite does not fall wholly on
lit pixels: notes/assumptions/9.md.) The second draw runs in any state with the first one's framebuffer and the same
memory, I and origin. -/
def Obligations.DrawTwiceRestoresFramebuffer : Prop :=
  ∀ (x y : Reg) (n : Nibble) (s : State), n = 0 ∨ s.effAddr (n.toNat - 1) ≤ 0xFFF →
    ∃ t, exec (.drw x y n) s = .next t ∧
      ∀ t' : State, t'.fb = t.fb → t'.mem = s.mem → t'.i = s.i → t'.getV x = s.getV x → t'.getV y = s.getV y →
        ∃ u, exec (.drw x y n) t' = .next u ∧
          (∀ px py, Framebuffer.pixel u.fb px py = Framebuffer.pixel s.fb px py) ∧
          ((u.getV VF).toNat = 1 ↔
            ∃ px py, SpriteHits s x y n px py ∧ Framebuffer.pixel s.fb px py = false)

/-! ## Keypad and timers -/

/-- R116 to R118, R142 (a) (key indices above 15 are decision D14, the end of memory D6): the keypad skips. With an index
0..15, or under `mask4` with VX mod 16, the skip is taken when that key's level in the tick's sample is down (`EX9E`) or
up (`EXA1`); with a larger index under `fault` the core halts with `KeyIndexOutOfRange` of VX. -/
def Obligations.KeypadSkipsTestSampledLevel : Prop :=
  ∀ (x : Reg) (s : State) (i : Instr) (down : Bool),
    ((i = .skp x ∧ down = true) ∨ (i = .sknp x ∧ down = false)) →
    ((s.getV x).toNat ≤ 15 ∨ s.keyIndexMode = .mask4 → ∃ t, exec i s = .next t ∧
      (s.key.getLsbD ((s.getV x).toNat % 16) = down → s.pc.toNat + 2 ≤ 0xFFF →
        t.pc.toNat = s.pc.toNat + 2 ∧ Frame [.pc] s t) ∧
      (s.key.getLsbD ((s.getV x).toNat % 16) = down → s.pc.toNat + 2 > 0xFFF →
        Halts .endOfMemory s.pc.toNat s t) ∧
      (s.key.getLsbD ((s.getV x).toNat % 16) ≠ down → Frame [] s t)) ∧
    ((s.getV x).toNat > 15 ∧ s.keyIndexMode = .fault → ∃ t, exec i s = .next t ∧
      Halts .keyIndexOutOfRange (s.getV x).toNat s t)

/-- R119 (decision D15): the tick that executes `FX0A` only enters the wait for VX; it does not look at the keypad and
writes no register. -/
def Obligations.KeyWaitOnlyEntersTheWait : Prop :=
  ∀ (x : Reg) (s : State), ∃ t, exec (.ldVxK x) s = .next t ∧ t.run = .waitingForKey x ∧ t.waitingOut = true ∧
    Frame [.run] s t

/-- R122: `FX07` is `0xF ++ X ++ 0x07` and reads DT into VX; DT is unchanged. -/
def Obligations.ReadDelayTimerIntoVx : Prop :=
  ∀ x : Reg, decodeWord (0xF#4 ++ regField x ++ 0x07#8) = .instr (.ldVxDt x) ∧
    ∀ s : State, ∃ t, exec (.ldVxDt x) s = .next t ∧ t.getV x = s.dt ∧ KeepsV [x] s t ∧ Frame [.v] s t

/-- R123: `FX15` is `0xF ++ X ++ 0x15` and sets DT to VX. -/
def Obligations.SetDelayTimerFromVx : Prop :=
  ∀ x : Reg, decodeWord (0xF#4 ++ regField x ++ 0x15#8) = .instr (.ldDtVx x) ∧
    ∀ s : State, ∃ t, exec (.ldDtVx x) s = .next t ∧ t.dt = s.getV x ∧ Frame [.dt] s t

/-- R124, R126 (the tone as a level is decision D18): `FX18` is `0xF ++ X ++ 0x18` and sets ST to VX; the tone is on
afterwards exactly when VX is not 0. -/
def Obligations.SetSoundTimerDrivesTone : Prop :=
  ∀ x : Reg, decodeWord (0xF#4 ++ regField x ++ 0x18#8) = .instr (.ldStVx x) ∧
    ∀ s : State, ∃ t, exec (.ldStVx x) s = .next t ∧ t.st = s.getV x ∧ (t.tone = true ↔ s.getV x ≠ 0) ∧
      Frame [.st] s t

/-! ## Rules over all instructions -/

/-- The invariant holds after reset: canonical memory, PC and return addresses inside MEM, FAULT agreeing with RUN. -/
def Obligations.ResetMeetsInvariant : Prop := State.reset.Inv

/-- R17, R26, R38: every step, whatever the event, keeps the invariant. -/
def Obligations.EveryStepKeepsInvariant : Prop := ∀ s t : State, s.Inv → step s = .next t → t.Inv

/-- R13, R14 (decisions D8, D9): a V register changes only when the instruction names it as a destination; VF also by the
six flag-writing instructions. -/
def Obligations.VRegistersChangeOnlyAsDestinations : Prop :=
  ∀ (i : Instr) (s t : State) (r : Reg), exec i s = .next t → t.getV r ≠ s.getV r → MayWriteV i r

/-- R15, R16, R18, R20, R21, R22, R23, R24: which instructions write I, PC, SP and the stack, memory, DT, ST, the
framebuffer, and that none writes IR. -/
def Obligations.SpecialStateHasOnlyItsWriters : Prop :=
  ∀ (i : Instr) (s t : State), exec i s = .next t →
    (t.i ≠ s.i → (∃ nnn, i = .ldI nnn) ∨ (∃ x, i = .addI x) ∨ ∃ x, i = .ldF x) ∧
    (t.pc ≠ s.pc → (∃ nnn, i = .jp nnn ∨ i = .call nnn ∨ i = .jpV0 nnn) ∨ i = .ret ∨
      (∃ x nn, i = .seImm x nn ∨ i = .sneImm x nn) ∨ (∃ x y, i = .seReg x y ∨ i = .sneReg x y) ∨
      ∃ x, i = .skp x ∨ i = .sknp x) ∧
    (t.sp ≠ s.sp → i = .ret ∨ ∃ nnn, i = .call nnn) ∧
    (t.stack ≠ s.stack → ∃ nnn, i = .call nnn) ∧
    (t.mem ≠ s.mem → ∃ x, i = .ldB x ∨ i = .stRegs x) ∧
    (t.dt ≠ s.dt → ∃ x, i = .ldDtVx x) ∧
    (t.st ≠ s.st → ∃ x, i = .ldStVx x) ∧
    (t.fb ≠ s.fb → i = .cls ∨ ∃ x y n, i = .drw x y n) ∧
    t.ir = s.ir

/-- R136, R143 (decisions D12, D28): a fatal condition is precise. When an instruction halts a core that was not halted,
only RUN, FAULT and FAULT_INFO have changed, and the cause is one that instruction can raise (R132). -/
def Obligations.FatalConditionsArePrecise : Prop :=
  ∀ (i : Instr) (s t : State), exec i s = .next t → s.run ≠ .halted → t.run = .halted →
    Frame [.run, .fault] s t ∧
    ((t.fault = .stackOverflow ∧ ∃ nnn, i = .call nnn) ∨ (t.fault = .stackUnderflow ∧ i = .ret) ∨
     (t.fault = .memoryOutOfBounds ∧ ((∃ nnn, i = .jpV0 nnn) ∨ (∃ x y n, i = .drw x y n) ∨
        ∃ x, i = .ldB x ∨ i = .stRegs x ∨ i = .ldRegs x)) ∨
     (t.fault = .endOfMemory ∧ ((∃ x nn, i = .seImm x nn ∨ i = .sneImm x nn) ∨
        (∃ x y, i = .seReg x y ∨ i = .sneReg x y) ∨ ∃ x, i = .skp x ∨ i = .sknp x)) ∨
     (t.fault = .keyIndexOutOfRange ∧ ∃ x, i = .skp x ∨ i = .sknp x))

/-- R25, R27: an instruction changes RUN only by entering the wait of `FX0A` or by a fatal condition; it changes FAULT only
when it halts the core. -/
def Obligations.RunChangesOnlyByWaitOrHalt : Prop :=
  ∀ (i : Instr) (s t : State), exec i s = .next t →
    (t.run ≠ s.run → t.run = .halted ∨ ∃ x, i = .ldVxK x ∧ t.run = .waitingForKey x) ∧
    (t.fault ≠ s.fault ∨ t.faultInfo ≠ s.faultInfo → t.run = .halted)

/-- R11, R34: the random byte matters to `CXNN` alone. Two states that differ only in it are taken by every other
instruction to states that differ only in it. -/
def Obligations.RandomByteReachesOnlyCxnn : Prop :=
  ∀ (i : Instr) (s t : State) (b : Byte), (∀ x nn, i ≠ .rnd x nn) → exec i s = .next t →
    exec i { s with rnd := b } = .next { t with rnd := b }

/-- R33, R40: the keypad sample matters to `EX9E` and `EXA1` alone among the instructions (`FX0A` does not look at it in
its own tick, R119). -/
def Obligations.KeypadReachesOnlyKeySkips : Prop :=
  ∀ (i : Instr) (s t : State) (k : Keys), (∀ x, i ≠ .skp x ∧ i ≠ .sknp x) → exec i s = .next t →
    exec i { s with key := k } = .next { t with key := k }

/-- R16, R38, R161: PC stays even under a program whose jumps go to even addresses. When PC and the return addresses are
even and the fetched instruction, if a jump, jumps evenly, the same holds after the step. -/
def Obligations.EvenTargetsKeepPcEven : Prop :=
  ∀ s t : State, s.pcEven → step s = .next t →
    (∀ i, decodeWord (s.readByte s.pc.toNat ++ s.readByte (s.pc.toNat + 1)) = .instr i → JumpsEven i s) → t.pcEven

/-- R166 (decision D27): a jump to itself is an end of the run. Once PC is `h` and the word there is `1hhh`, an instruction
tick leaves every component but IR as it was, and the predicate holds again. -/
def Obligations.SelfJumpEndsTheRun : Prop :=
  ∀ (s : State) (h : Addr12) (n m : Nat) (k : Keys) (r : Byte) (es : List Event),
    s.run = .running → h.toNat ≤ 0xFFD → s.events = .instrTick k r :: es →
    (EndOfRun.selfJump h).reached n s = true →
    ∃ t, step s = .next t ∧ Frame [.ir] { s with key := k, rnd := r, events := es } t ∧
      (EndOfRun.selfJump h).reached m t = true
end

