-- ==== Sys2Proof/Laws/Decode.lean ====
section
/-! SUPPORT. Fields of words and words of fields, as arithmetic: what each field of a word is, what an encoded word is as a
number, and the class and selector by which the decoder chooses. -/

namespace Sys2Proof

/-! ### Fields and words as numbers -/

/-- Concatenation as a sum. -/
theorem toNat_append_add {m n : Nat} (a : BitVec m) (b : BitVec n) : (a ++ b).toNat = a.toNat * 2 ^ n + b.toNat := by
  rw [BitVec.toNat_append, ← Nat.shiftLeft_add_eq_or_of_lt b.isLt, Nat.shiftLeft_eq]

theorem fields_c_toNat (w : Word) : (fields w).c.toNat = w.toNat / 4096 := by
  have := w.isLt
  simp [fields, BitVec.extractLsb'_toNat, Nat.shiftRight_eq_div_pow]; omega

theorem fields_x_val (w : Word) : (fields w).x.val = w.toNat / 256 % 16 := by
  simp [fields, Nat.shiftRight_eq_div_pow]

theorem fields_y_val (w : Word) : (fields w).y.val = w.toNat / 16 % 16 := by
  simp [fields, Nat.shiftRight_eq_div_pow]

theorem fields_n_toNat (w : Word) : (fields w).n.toNat = w.toNat % 16 := by
  simp [fields, BitVec.extractLsb'_toNat]

theorem fields_nn_toNat (w : Word) : (fields w).nn.toNat = w.toNat % 256 := by
  simp [fields, BitVec.extractLsb'_toNat]

theorem fields_nnn_toNat (w : Word) : (fields w).nnn.toNat = w.toNat % 4096 := by
  simp [fields, BitVec.extractLsb'_toNat]

@[simp] theorem regField_toNat (r : Reg) : (regField r).toNat = r.val := rfl

theorem encodeNNN_toNat (c : Nibble) (nnn : Addr12) : (encodeNNN c nnn).toNat = c.toNat * 4096 + nnn.toNat := by
  unfold encodeNNN
  exact (toNat_append_add c nnn).trans (by norm_num)

theorem encodeXNN_toNat (c : Nibble) (x : Reg) (nn : Byte) :
    (encodeXNN c x nn).toNat = c.toNat * 4096 + x.val * 256 + nn.toNat := by
  have h : (encodeXNN c x nn).toNat = (c.toNat * 2 ^ 4 + x.val) * 2 ^ 8 + nn.toNat := by
    unfold encodeXNN; rw [toNat_append_add, toNat_append_add, regField_toNat]
  exact h.trans (by ring)

theorem encodeXYN_toNat (c : Nibble) (x y : Reg) (n : Nibble) :
    (encodeXYN c x y n).toNat = c.toNat * 4096 + x.val * 256 + y.val * 16 + n.toNat := by
  have h : (encodeXYN c x y n).toNat = ((c.toNat * 2 ^ 4 + x.val) * 2 ^ 4 + y.val) * 2 ^ 4 + n.toNat := by
    unfold encodeXYN; rw [toNat_append_add, toNat_append_add, toNat_append_add, regField_toNat, regField_toNat]
  exact h.trans (by ring)

/-! ### The fields of an encoded word -/

theorem fields_encodeNNN (c : Nibble) (nnn : Addr12) :
    (fields (encodeNNN c nnn)).c = c ∧ (fields (encodeNNN c nnn)).nnn = nnn := by
  have h1 := fields_c_toNat (encodeNNN c nnn)
  have h2 := fields_nnn_toNat (encodeNNN c nnn)
  have := nnn.isLt
  rw [encodeNNN_toNat] at h1 h2
  exact ⟨BitVec.eq_of_toNat_eq (by omega), BitVec.eq_of_toNat_eq (by omega)⟩

theorem fields_encodeXNN (c : Nibble) (x : Reg) (nn : Byte) :
    (fields (encodeXNN c x nn)).c = c ∧ (fields (encodeXNN c x nn)).x = x ∧ (fields (encodeXNN c x nn)).nn = nn := by
  have h1 := fields_c_toNat (encodeXNN c x nn)
  have h2 := fields_x_val (encodeXNN c x nn)
  have h3 := fields_nn_toNat (encodeXNN c x nn)
  have := x.isLt
  have := nn.isLt
  rw [encodeXNN_toNat] at h1 h2 h3
  exact ⟨BitVec.eq_of_toNat_eq (by omega), Fin.ext (by omega), BitVec.eq_of_toNat_eq (by omega)⟩

theorem fields_encodeXYN (c : Nibble) (x y : Reg) (n : Nibble) :
    (fields (encodeXYN c x y n)).c = c ∧ (fields (encodeXYN c x y n)).x = x ∧ (fields (encodeXYN c x y n)).y = y ∧
      (fields (encodeXYN c x y n)).n = n := by
  have h1 := fields_c_toNat (encodeXYN c x y n)
  have h2 := fields_x_val (encodeXYN c x y n)
  have h3 := fields_y_val (encodeXYN c x y n)
  have h4 := fields_n_toNat (encodeXYN c x y n)
  have := x.isLt
  have := y.isLt
  have := n.isLt
  rw [encodeXYN_toNat] at h1 h2 h3 h4
  exact ⟨BitVec.eq_of_toNat_eq (by omega), Fin.ext (by omega), Fin.ext (by omega), BitVec.eq_of_toNat_eq (by omega)⟩

theorem encodeNNN_inj {c c' : Nibble} {a a' : Addr12} (h : encodeNNN c a = encodeNNN c' a') : c = c' ∧ a = a' := by
  have h1 := fields_encodeNNN c a
  have h2 := fields_encodeNNN c' a'
  rw [h] at h1
  exact ⟨h1.1.symm.trans h2.1, h1.2.symm.trans h2.2⟩

theorem encodeXNN_inj {c c' : Nibble} {x x' : Reg} {b b' : Byte} (h : encodeXNN c x b = encodeXNN c' x' b') :
    c = c' ∧ x = x' ∧ b = b' := by
  have h1 := fields_encodeXNN c x b
  have h2 := fields_encodeXNN c' x' b'
  rw [h] at h1
  exact ⟨h1.1.symm.trans h2.1, h1.2.1.symm.trans h2.2.1, h1.2.2.symm.trans h2.2.2⟩

theorem encodeXYN_inj {c c' : Nibble} {x x' y y' : Reg} {n n' : Nibble}
    (h : encodeXYN c x y n = encodeXYN c' x' y' n') : c = c' ∧ x = x' ∧ y = y' ∧ n = n' := by
  have h1 := fields_encodeXYN c x y n
  have h2 := fields_encodeXYN c' x' y' n'
  rw [h] at h1
  exact ⟨h1.1.symm.trans h2.1, h1.2.1.symm.trans h2.2.1, h1.2.2.1.symm.trans h2.2.2.1,
    h1.2.2.2.symm.trans h2.2.2.2⟩

/-! ### A word is its fields -/

theorem encodeNNN_fields (w : Word) : encodeNNN (fields w).c (fields w).nnn = w := by
  apply BitVec.eq_of_toNat_eq
  rw [encodeNNN_toNat, fields_c_toNat, fields_nnn_toNat]
  omega

theorem encodeXNN_fields (w : Word) : encodeXNN (fields w).c (fields w).x (fields w).nn = w := by
  apply BitVec.eq_of_toNat_eq
  rw [encodeXNN_toNat, fields_c_toNat, fields_x_val, fields_nn_toNat]
  omega

theorem encodeXYN_fields (w : Word) : encodeXYN (fields w).c (fields w).x (fields w).y (fields w).n = w := by
  apply BitVec.eq_of_toNat_eq
  rw [encodeXYN_toNat, fields_c_toNat, fields_x_val, fields_y_val, fields_n_toNat]
  omega

/-! ### What the masks of the opcode table keep (R63) -/

/-- The mask `0xF000` keeps the class. -/
theorem and_maskClass (w : Word) : w &&& 0xF000 = encodeNNN (fields w).c 0 := by
  conv_lhs => rw [← encodeNNN_fields w]
  rw [show (0xF000 : Word) = encodeNNN 0xF 0 from by decide]
  unfold encodeNNN
  refine (BitVec.and_append (x₁ := (fields w).c) (x₂ := 0xF) (y₁ := (fields w).nnn) (y₂ := 0)).trans ?_
  rw [show (fields w).c &&& 0xF = (fields w).c from BitVec.and_allOnes,
    show (fields w).nnn &&& 0 = 0 from BitVec.and_zero]

/-- The mask `0xF00F` keeps the class and the low nibble. -/
theorem and_maskClassNibble (w : Word) : w &&& 0xF00F = encodeXYN (fields w).c 0 0 (fields w).n := by
  conv_lhs => rw [← encodeXYN_fields w]
  rw [show (0xF00F : Word) = encodeXYN 0xF 0 0 0xF from by decide]
  unfold encodeXYN
  rw [BitVec.and_append, BitVec.and_append, BitVec.and_append,
    show (fields w).c &&& 0xF = (fields w).c from BitVec.and_allOnes,
    show (fields w).n &&& 0xF = (fields w).n from BitVec.and_allOnes,
    show ∀ a : Nibble, a &&& regField 0 = regField 0 from fun a => BitVec.and_zero,
    show ∀ a : Nibble, a &&& regField 0 = regField 0 from fun a => BitVec.and_zero]

/-- The mask `0xF0FF` keeps the class and the low byte. -/
theorem and_maskClassByte (w : Word) : w &&& 0xF0FF = encodeXNN (fields w).c 0 (fields w).nn := by
  conv_lhs => rw [← encodeXNN_fields w]
  rw [show (0xF0FF : Word) = encodeXNN 0xF 0 0xFF from by decide]
  unfold encodeXNN
  rw [BitVec.and_append, BitVec.and_append,
    show (fields w).c &&& 0xF = (fields w).c from BitVec.and_allOnes,
    show (fields w).nn &&& 0xFF = (fields w).nn from BitVec.and_allOnes,
    show ∀ a : Nibble, a &&& regField 0 = regField 0 from fun a => BitVec.and_zero]

/-- The mask `0xFFFF` keeps the word. -/
theorem and_maskWord (w : Word) : w &&& 0xFFFF = w := BitVec.and_allOnes

/-! ### The decoder's choice, class by class -/

/-- The class of a word is one of the sixteen. -/
theorem class_cases (c : Nibble) :
    c = 0x0 ∨ c = 0x1 ∨ c = 0x2 ∨ c = 0x3 ∨ c = 0x4 ∨ c = 0x5 ∨ c = 0x6 ∨ c = 0x7 ∨
    c = 0x8 ∨ c = 0x9 ∨ c = 0xA ∨ c = 0xB ∨ c = 0xC ∨ c = 0xD ∨ c = 0xE ∨ c = 0xF := by
  revert c; decide

theorem decodeWord_class0 {w : Word} (h : (fields w).c = 0x0) : decodeWord w = decodeClass0 w := by
  simp [decodeWord, h]

theorem decodeWord_class1 {w : Word} (h : (fields w).c = 0x1) : decodeWord w = .instr (.jp (fields w).nnn) := by
  simp [decodeWord, h]

theorem decodeWord_class2 {w : Word} (h : (fields w).c = 0x2) : decodeWord w = .instr (.call (fields w).nnn) := by
  simp [decodeWord, h]

theorem decodeWord_class3 {w : Word} (h : (fields w).c = 0x3) :
    decodeWord w = .instr (.seImm (fields w).x (fields w).nn) := by
  simp [decodeWord, h]

theorem decodeWord_class4 {w : Word} (h : (fields w).c = 0x4) :
    decodeWord w = .instr (.sneImm (fields w).x (fields w).nn) := by
  simp [decodeWord, h]

theorem decodeWord_class5 {w : Word} (h : (fields w).c = 0x5) :
    decodeWord w = if (fields w).n = 0x0#4 then .instr (.seReg (fields w).x (fields w).y) else .unknown .class5 := by
  simp [decodeWord, h]

theorem decodeWord_class6 {w : Word} (h : (fields w).c = 0x6) :
    decodeWord w = .instr (.ldImm (fields w).x (fields w).nn) := by
  simp [decodeWord, h]

theorem decodeWord_class7 {w : Word} (h : (fields w).c = 0x7) :
    decodeWord w = .instr (.addImm (fields w).x (fields w).nn) := by
  simp [decodeWord, h]

theorem decodeWord_class8 {w : Word} (h : (fields w).c = 0x8) : decodeWord w = decodeClass8 (fields w) := by
  simp [decodeWord, h]

theorem decodeWord_class9 {w : Word} (h : (fields w).c = 0x9) :
    decodeWord w = if (fields w).n = 0x0#4 then .instr (.sneReg (fields w).x (fields w).y) else .unknown .class9 := by
  simp [decodeWord, h]

theorem decodeWord_classA {w : Word} (h : (fields w).c = 0xA) : decodeWord w = .instr (.ldI (fields w).nnn) := by
  simp [decodeWord, h]

theorem decodeWord_classB {w : Word} (h : (fields w).c = 0xB) : decodeWord w = .instr (.jpV0 (fields w).nnn) := by
  simp [decodeWord, h]

theorem decodeWord_classC {w : Word} (h : (fields w).c = 0xC) :
    decodeWord w = .instr (.rnd (fields w).x (fields w).nn) := by
  simp [decodeWord, h]

theorem decodeWord_classD {w : Word} (h : (fields w).c = 0xD) :
    decodeWord w = .instr (.drw (fields w).x (fields w).y (fields w).n) := by
  simp [decodeWord, h]

theorem decodeWord_classE {w : Word} (h : (fields w).c = 0xE) : decodeWord w = decodeClassE (fields w) := by
  simp [decodeWord, h]

theorem decodeWord_classF {w : Word} (h : (fields w).c = 0xF) : decodeWord w = decodeClassF (fields w) := by
  simp [decodeWord, h]

/-! ### Format by format: the decoder on an encoded word -/

theorem decodeWord_encodeXYN_class8 (x y : Reg) (n : Nibble) :
    decodeWord (encodeXYN 0x8 x y n) = decodeClass8 (fields (encodeXYN 0x8 x y n)) :=
  decodeWord_class8 (fields_encodeXYN 0x8 x y n).1

theorem decodeWord_encodeXNN_classE (x : Reg) (nn : Byte) :
    decodeWord (encodeXNN 0xE x nn) = decodeClassE (fields (encodeXNN 0xE x nn)) :=
  decodeWord_classE (fields_encodeXNN 0xE x nn).1

theorem decodeWord_encodeXNN_classF (x : Reg) (nn : Byte) :
    decodeWord (encodeXNN 0xF x nn) = decodeClassF (fields (encodeXNN 0xF x nn)) :=
  decodeWord_classF (fields_encodeXNN 0xF x nn).1

end Sys2Proof
end

