-- ==== Sys2Proof/Laws/Memory.lean ====
section
/-! SUPPORT. Memory: every operation keeps the canonical form, and a read after a write gives the value written there and
what was there before everywhere else. -/

namespace Sys2Proof.Machine

/-- Above a bound means above every smaller bound. -/
theorem Memory.wfAbove_mono {lo hi : Nat} (h : lo ≤ hi) {m : Memory} (hm : Memory.wfAbove hi m = true) :
    Memory.wfAbove lo m = true := by
  cases m with
  | nil => rfl
  | cons c m =>
    simp only [Memory.wfAbove, Bool.and_eq_true, decide_eq_true_eq] at hm ⊢
    exact ⟨⟨⟨by omega, hm.1.1.2⟩, hm.1.2⟩, hm.2⟩

/-- Below its bound, a canonical memory reads as the boot contents. -/
theorem Memory.read_below {lo a : Nat} (h : a < lo) {m : Memory} (hm : Memory.wfAbove lo m = true) :
    Memory.read m a = bootByte a := by
  induction m generalizing lo with
  | nil => rfl
  | cons c m ih =>
    simp only [Memory.wfAbove, Bool.and_eq_true, decide_eq_true_eq] at hm
    rw [Memory.read, if_neg (by omega)]
    exact ih (lo := c.1 + 1) (by omega) hm.2

/-- A write inside MEM keeps the form above a bound. -/
theorem Memory.wfAbove_write {lo a : Nat} (ha : lo ≤ a) (ha' : a ≤ 0xFFF) (v : Byte) {m : Memory}
    (hm : Memory.wfAbove lo m = true) : Memory.wfAbove lo (Memory.write m a v) = true := by
  induction m generalizing lo with
  | nil =>
    unfold Memory.write
    split
    · rfl
    · simp_all [Memory.wfAbove]
  | cons c m ih =>
    obtain ⟨b, w⟩ := c
    simp only [Memory.wfAbove, Bool.and_eq_true, decide_eq_true_eq] at hm
    obtain ⟨⟨⟨h1, h2⟩, h3⟩, h4⟩ := hm
    unfold Memory.write
    split_ifs with hlt hv heq hv
    · simp [Memory.wfAbove, h1, h2, h3, h4]
    · simp [Memory.wfAbove, ha, ha', hv, h2, h3, h4]; omega
    · exact Memory.wfAbove_mono (by omega) h4
    · subst heq
      simp [Memory.wfAbove, ha, ha', hv, h4]
    · simp [Memory.wfAbove, h1, h2, h3, ih (lo := b + 1) (by omega) h4]

/-- A write inside MEM keeps the canonical form. -/
theorem Memory.wf_write {a : Nat} (ha : a ≤ 0xFFF) (v : Byte) {m : Memory} (hm : Memory.wf m = true) :
    Memory.wf (Memory.write m a v) = true :=
  Memory.wfAbove_write (Nat.zero_le _) ha v hm

theorem Memory.read_write_same_above {lo : Nat} (a : Nat) (v : Byte) {m : Memory}
    (hm : Memory.wfAbove lo m = true) : Memory.read (Memory.write m a v) a = v := by
  induction m generalizing lo with
  | nil =>
    unfold Memory.write
    split_ifs with hv
    · simp [Memory.read, hv]
    · simp [Memory.read]
  | cons c m ih =>
    obtain ⟨b, w⟩ := c
    simp only [Memory.wfAbove, Bool.and_eq_true, decide_eq_true_eq] at hm
    unfold Memory.write
    split_ifs with hlt hv heq hv
    · rw [Memory.read, if_neg (by omega), Memory.read_below (by omega) hm.2, hv]
    · simp [Memory.read]
    · rw [Memory.read_below (by omega : a < b + 1) hm.2, hv]
    · simp [Memory.read]
    · rw [Memory.read, if_neg heq]
      exact ih hm.2

theorem Memory.read_write_other_above {lo : Nat} {a b : Nat} (h : b ≠ a) (v : Byte) {m : Memory}
    (hm : Memory.wfAbove lo m = true) : Memory.read (Memory.write m a v) b = Memory.read m b := by
  induction m generalizing lo with
  | nil =>
    unfold Memory.write
    split_ifs with hv
    · rfl
    · simp [Memory.read, h]
  | cons c m ih =>
    obtain ⟨d, w⟩ := c
    simp only [Memory.wfAbove, Bool.and_eq_true, decide_eq_true_eq] at hm
    unfold Memory.write
    split_ifs with hlt hv heq hv
    · rfl
    · simp [Memory.read, h]
    · subst heq; simp [Memory.read, h]
    · subst heq; simp [Memory.read, h]
    · simp only [Memory.read]
      split_ifs with hb
      · rfl
      · exact ih hm.2

/-- A read after a write to the same address gives the value written. -/
theorem Memory.read_write_same (a : Nat) (v : Byte) {m : Memory} (hm : Memory.wf m = true) :
    Memory.read (Memory.write m a v) a = v :=
  Memory.read_write_same_above a v hm

/-- A write leaves every other address alone. -/
theorem Memory.read_write_other {a b : Nat} (h : b ≠ a) (v : Byte) {m : Memory} (hm : Memory.wf m = true) :
    Memory.read (Memory.write m a v) b = Memory.read m b :=
  Memory.read_write_other_above h v hm

/-- Storing bytes inside MEM keeps the canonical form. -/
theorem Memory.wf_writeBytes {a : Nat} {bs : List Byte} {m : Memory} (h : a + bs.length ≤ 0x1000)
    (hm : Memory.wf m = true) : Memory.wf (Memory.writeBytes m a bs) = true := by
  induction bs generalizing a m with
  | nil => exact hm
  | cons b bs ih =>
    simp only [List.length_cons] at h
    exact ih (by omega) (Memory.wf_write (by omega) b hm)

/-- Outside the stored bytes nothing changes. -/
theorem Memory.read_writeBytes_outside {a c : Nat} {bs : List Byte} {m : Memory} (h : a + bs.length ≤ 0x1000)
    (hm : Memory.wf m = true) (hc : ¬ (a ≤ c ∧ c < a + bs.length)) :
    Memory.read (Memory.writeBytes m a bs) c = Memory.read m c := by
  induction bs generalizing a m with
  | nil => rfl
  | cons b bs ih =>
    simp only [List.length_cons] at h hc
    rw [Memory.writeBytes, ih (by omega) (Memory.wf_write (by omega) b hm) (by omega),
      Memory.read_write_other (by omega) b hm]

/-- Inside them, byte `k` is the `k`-th byte stored. -/
theorem Memory.read_writeBytes_inside {a k : Nat} {bs : List Byte} {m : Memory} (h : a + bs.length ≤ 0x1000)
    (hm : Memory.wf m = true) (hk : k < bs.length) :
    Memory.read (Memory.writeBytes m a bs) (a + k) = bs[k] := by
  induction bs generalizing a k m with
  | nil => simp at hk
  | cons b bs ih =>
    simp only [List.length_cons] at h hk
    have hm' := Memory.wf_write (a := a) (by omega) b hm
    cases k with
    | zero =>
      rw [Memory.writeBytes, Memory.read_writeBytes_outside (by omega) hm' (by omega)]
      exact Memory.read_write_same a b hm
    | succ k =>
      have e : a + (k + 1) = a + 1 + k := by omega
      rw [Memory.writeBytes, e, ih (by omega) hm' (by omega)]
      rfl

@[simp] theorem Memory.readBytes_length (m : Memory) (a n : Nat) : (Memory.readBytes m a n).length = n := by
  simp [Memory.readBytes]

@[simp] theorem Memory.readBytes_getElem (m : Memory) (a n k : Nat) (h : k < (Memory.readBytes m a n).length) :
    (Memory.readBytes m a n)[k] = Memory.read m (a + k) := by
  simp [Memory.readBytes]

end Sys2Proof.Machine
end

