-- ==== Sys2Proof/Laws/State.lean ====
section
/-! SUPPORT. The small lemmas of the state: one per field per update, true by rfl, so that no later proof unfolds a record
update; and what a register or a byte reads as after each update. -/

namespace Sys2Proof.Machine

/-! ### setV -/

@[simp] theorem setV_v (s : State) (r : Reg) (b : Byte) : (s.setV r b).v = s.v.set r.val b := rfl
@[simp] theorem setV_i (s : State) (r : Reg) (b : Byte) : (s.setV r b).i = s.i := rfl
@[simp] theorem setV_pc (s : State) (r : Reg) (b : Byte) : (s.setV r b).pc = s.pc := rfl
@[simp] theorem setV_sp (s : State) (r : Reg) (b : Byte) : (s.setV r b).sp = s.sp := rfl
@[simp] theorem setV_stack (s : State) (r : Reg) (b : Byte) : (s.setV r b).stack = s.stack := rfl
@[simp] theorem setV_mem (s : State) (r : Reg) (b : Byte) : (s.setV r b).mem = s.mem := rfl
@[simp] theorem setV_dt (s : State) (r : Reg) (b : Byte) : (s.setV r b).dt = s.dt := rfl
@[simp] theorem setV_st (s : State) (r : Reg) (b : Byte) : (s.setV r b).st = s.st := rfl
@[simp] theorem setV_fb (s : State) (r : Reg) (b : Byte) : (s.setV r b).fb = s.fb := rfl
@[simp] theorem setV_ir (s : State) (r : Reg) (b : Byte) : (s.setV r b).ir = s.ir := rfl
@[simp] theorem setV_run (s : State) (r : Reg) (b : Byte) : (s.setV r b).run = s.run := rfl
@[simp] theorem setV_fault (s : State) (r : Reg) (b : Byte) : (s.setV r b).fault = s.fault := rfl
@[simp] theorem setV_faultInfo (s : State) (r : Reg) (b : Byte) : (s.setV r b).faultInfo = s.faultInfo := rfl
@[simp] theorem setV_key (s : State) (r : Reg) (b : Byte) : (s.setV r b).key = s.key := rfl
@[simp] theorem setV_rnd (s : State) (r : Reg) (b : Byte) : (s.setV r b).rnd = s.rnd := rfl
@[simp] theorem setV_events (s : State) (r : Reg) (b : Byte) : (s.setV r b).events = s.events := rfl
@[simp] theorem setV_draws (s : State) (r : Reg) (b : Byte) : (s.setV r b).draws = s.draws := rfl
@[simp] theorem setV_keyIndexMode (s : State) (r : Reg) (b : Byte) : (s.setV r b).keyIndexMode = s.keyIndexMode := rfl
@[simp] theorem setV_readByte (s : State) (r : Reg) (b : Byte) (a : Nat) : (s.setV r b).readByte a = s.readByte a := rfl

/-! ### setVFlag -/

@[simp] theorem setVFlag_v (s : State) (r : Reg) (b f : Byte) : (s.setVFlag r b f).v = (s.v.set r.val b).set VF.val f := rfl
@[simp] theorem setVFlag_i (s : State) (r : Reg) (b f : Byte) : (s.setVFlag r b f).i = s.i := rfl
@[simp] theorem setVFlag_pc (s : State) (r : Reg) (b f : Byte) : (s.setVFlag r b f).pc = s.pc := rfl
@[simp] theorem setVFlag_sp (s : State) (r : Reg) (b f : Byte) : (s.setVFlag r b f).sp = s.sp := rfl
@[simp] theorem setVFlag_stack (s : State) (r : Reg) (b f : Byte) : (s.setVFlag r b f).stack = s.stack := rfl
@[simp] theorem setVFlag_mem (s : State) (r : Reg) (b f : Byte) : (s.setVFlag r b f).mem = s.mem := rfl
@[simp] theorem setVFlag_dt (s : State) (r : Reg) (b f : Byte) : (s.setVFlag r b f).dt = s.dt := rfl
@[simp] theorem setVFlag_st (s : State) (r : Reg) (b f : Byte) : (s.setVFlag r b f).st = s.st := rfl
@[simp] theorem setVFlag_fb (s : State) (r : Reg) (b f : Byte) : (s.setVFlag r b f).fb = s.fb := rfl
@[simp] theorem setVFlag_ir (s : State) (r : Reg) (b f : Byte) : (s.setVFlag r b f).ir = s.ir := rfl
@[simp] theorem setVFlag_run (s : State) (r : Reg) (b f : Byte) : (s.setVFlag r b f).run = s.run := rfl
@[simp] theorem setVFlag_fault (s : State) (r : Reg) (b f : Byte) : (s.setVFlag r b f).fault = s.fault := rfl
@[simp] theorem setVFlag_faultInfo (s : State) (r : Reg) (b f : Byte) : (s.setVFlag r b f).faultInfo = s.faultInfo := rfl
@[simp] theorem setVFlag_key (s : State) (r : Reg) (b f : Byte) : (s.setVFlag r b f).key = s.key := rfl
@[simp] theorem setVFlag_rnd (s : State) (r : Reg) (b f : Byte) : (s.setVFlag r b f).rnd = s.rnd := rfl
@[simp] theorem setVFlag_events (s : State) (r : Reg) (b f : Byte) : (s.setVFlag r b f).events = s.events := rfl
@[simp] theorem setVFlag_draws (s : State) (r : Reg) (b f : Byte) : (s.setVFlag r b f).draws = s.draws := rfl
@[simp] theorem setVFlag_keyIndexMode (s : State) (r : Reg) (b f : Byte) : (s.setVFlag r b f).keyIndexMode = s.keyIndexMode := rfl
@[simp] theorem setVFlag_readByte (s : State) (r : Reg) (b f : Byte) (a : Nat) : (s.setVFlag r b f).readByte a = s.readByte a := rfl

/-! ### setI -/

@[simp] theorem setI_v (s : State) (w : Word) : (s.setI w).v = s.v := rfl
@[simp] theorem setI_i (s : State) (w : Word) : (s.setI w).i = w := rfl
@[simp] theorem setI_pc (s : State) (w : Word) : (s.setI w).pc = s.pc := rfl
@[simp] theorem setI_sp (s : State) (w : Word) : (s.setI w).sp = s.sp := rfl
@[simp] theorem setI_stack (s : State) (w : Word) : (s.setI w).stack = s.stack := rfl
@[simp] theorem setI_mem (s : State) (w : Word) : (s.setI w).mem = s.mem := rfl
@[simp] theorem setI_dt (s : State) (w : Word) : (s.setI w).dt = s.dt := rfl
@[simp] theorem setI_st (s : State) (w : Word) : (s.setI w).st = s.st := rfl
@[simp] theorem setI_fb (s : State) (w : Word) : (s.setI w).fb = s.fb := rfl
@[simp] theorem setI_ir (s : State) (w : Word) : (s.setI w).ir = s.ir := rfl
@[simp] theorem setI_run (s : State) (w : Word) : (s.setI w).run = s.run := rfl
@[simp] theorem setI_fault (s : State) (w : Word) : (s.setI w).fault = s.fault := rfl
@[simp] theorem setI_faultInfo (s : State) (w : Word) : (s.setI w).faultInfo = s.faultInfo := rfl
@[simp] theorem setI_key (s : State) (w : Word) : (s.setI w).key = s.key := rfl
@[simp] theorem setI_rnd (s : State) (w : Word) : (s.setI w).rnd = s.rnd := rfl
@[simp] theorem setI_events (s : State) (w : Word) : (s.setI w).events = s.events := rfl
@[simp] theorem setI_draws (s : State) (w : Word) : (s.setI w).draws = s.draws := rfl
@[simp] theorem setI_keyIndexMode (s : State) (w : Word) : (s.setI w).keyIndexMode = s.keyIndexMode := rfl
@[simp] theorem setI_getV (s : State) (w : Word) (q : Reg) : (s.setI w).getV q = s.getV q := rfl
@[simp] theorem setI_readByte (s : State) (w : Word) (a : Nat) : (s.setI w).readByte a = s.readByte a := rfl

/-! ### setPc -/

@[simp] theorem setPc_v (s : State) (w : Word) : (s.setPc w).v = s.v := rfl
@[simp] theorem setPc_i (s : State) (w : Word) : (s.setPc w).i = s.i := rfl
@[simp] theorem setPc_pc (s : State) (w : Word) : (s.setPc w).pc = w := rfl
@[simp] theorem setPc_sp (s : State) (w : Word) : (s.setPc w).sp = s.sp := rfl
@[simp] theorem setPc_stack (s : State) (w : Word) : (s.setPc w).stack = s.stack := rfl
@[simp] theorem setPc_mem (s : State) (w : Word) : (s.setPc w).mem = s.mem := rfl
@[simp] theorem setPc_dt (s : State) (w : Word) : (s.setPc w).dt = s.dt := rfl
@[simp] theorem setPc_st (s : State) (w : Word) : (s.setPc w).st = s.st := rfl
@[simp] theorem setPc_fb (s : State) (w : Word) : (s.setPc w).fb = s.fb := rfl
@[simp] theorem setPc_ir (s : State) (w : Word) : (s.setPc w).ir = s.ir := rfl
@[simp] theorem setPc_run (s : State) (w : Word) : (s.setPc w).run = s.run := rfl
@[simp] theorem setPc_fault (s : State) (w : Word) : (s.setPc w).fault = s.fault := rfl
@[simp] theorem setPc_faultInfo (s : State) (w : Word) : (s.setPc w).faultInfo = s.faultInfo := rfl
@[simp] theorem setPc_key (s : State) (w : Word) : (s.setPc w).key = s.key := rfl
@[simp] theorem setPc_rnd (s : State) (w : Word) : (s.setPc w).rnd = s.rnd := rfl
@[simp] theorem setPc_events (s : State) (w : Word) : (s.setPc w).events = s.events := rfl
@[simp] theorem setPc_draws (s : State) (w : Word) : (s.setPc w).draws = s.draws := rfl
@[simp] theorem setPc_keyIndexMode (s : State) (w : Word) : (s.setPc w).keyIndexMode = s.keyIndexMode := rfl
@[simp] theorem setPc_getV (s : State) (w : Word) (q : Reg) : (s.setPc w).getV q = s.getV q := rfl
@[simp] theorem setPc_readByte (s : State) (w : Word) (a : Nat) : (s.setPc w).readByte a = s.readByte a := rfl

/-! ### setDt -/

@[simp] theorem setDt_v (s : State) (b : Byte) : (s.setDt b).v = s.v := rfl
@[simp] theorem setDt_i (s : State) (b : Byte) : (s.setDt b).i = s.i := rfl
@[simp] theorem setDt_pc (s : State) (b : Byte) : (s.setDt b).pc = s.pc := rfl
@[simp] theorem setDt_sp (s : State) (b : Byte) : (s.setDt b).sp = s.sp := rfl
@[simp] theorem setDt_stack (s : State) (b : Byte) : (s.setDt b).stack = s.stack := rfl
@[simp] theorem setDt_mem (s : State) (b : Byte) : (s.setDt b).mem = s.mem := rfl
@[simp] theorem setDt_dt (s : State) (b : Byte) : (s.setDt b).dt = b := rfl
@[simp] theorem setDt_st (s : State) (b : Byte) : (s.setDt b).st = s.st := rfl
@[simp] theorem setDt_fb (s : State) (b : Byte) : (s.setDt b).fb = s.fb := rfl
@[simp] theorem setDt_ir (s : State) (b : Byte) : (s.setDt b).ir = s.ir := rfl
@[simp] theorem setDt_run (s : State) (b : Byte) : (s.setDt b).run = s.run := rfl
@[simp] theorem setDt_fault (s : State) (b : Byte) : (s.setDt b).fault = s.fault := rfl
@[simp] theorem setDt_faultInfo (s : State) (b : Byte) : (s.setDt b).faultInfo = s.faultInfo := rfl
@[simp] theorem setDt_key (s : State) (b : Byte) : (s.setDt b).key = s.key := rfl
@[simp] theorem setDt_rnd (s : State) (b : Byte) : (s.setDt b).rnd = s.rnd := rfl
@[simp] theorem setDt_events (s : State) (b : Byte) : (s.setDt b).events = s.events := rfl
@[simp] theorem setDt_draws (s : State) (b : Byte) : (s.setDt b).draws = s.draws := rfl
@[simp] theorem setDt_keyIndexMode (s : State) (b : Byte) : (s.setDt b).keyIndexMode = s.keyIndexMode := rfl
@[simp] theorem setDt_getV (s : State) (b : Byte) (q : Reg) : (s.setDt b).getV q = s.getV q := rfl
@[simp] theorem setDt_readByte (s : State) (b : Byte) (a : Nat) : (s.setDt b).readByte a = s.readByte a := rfl

/-! ### setSt -/

@[simp] theorem setSt_v (s : State) (b : Byte) : (s.setSt b).v = s.v := rfl
@[simp] theorem setSt_i (s : State) (b : Byte) : (s.setSt b).i = s.i := rfl
@[simp] theorem setSt_pc (s : State) (b : Byte) : (s.setSt b).pc = s.pc := rfl
@[simp] theorem setSt_sp (s : State) (b : Byte) : (s.setSt b).sp = s.sp := rfl
@[simp] theorem setSt_stack (s : State) (b : Byte) : (s.setSt b).stack = s.stack := rfl
@[simp] theorem setSt_mem (s : State) (b : Byte) : (s.setSt b).mem = s.mem := rfl
@[simp] theorem setSt_dt (s : State) (b : Byte) : (s.setSt b).dt = s.dt := rfl
@[simp] theorem setSt_st (s : State) (b : Byte) : (s.setSt b).st = b := rfl
@[simp] theorem setSt_fb (s : State) (b : Byte) : (s.setSt b).fb = s.fb := rfl
@[simp] theorem setSt_ir (s : State) (b : Byte) : (s.setSt b).ir = s.ir := rfl
@[simp] theorem setSt_run (s : State) (b : Byte) : (s.setSt b).run = s.run := rfl
@[simp] theorem setSt_fault (s : State) (b : Byte) : (s.setSt b).fault = s.fault := rfl
@[simp] theorem setSt_faultInfo (s : State) (b : Byte) : (s.setSt b).faultInfo = s.faultInfo := rfl
@[simp] theorem setSt_key (s : State) (b : Byte) : (s.setSt b).key = s.key := rfl
@[simp] theorem setSt_rnd (s : State) (b : Byte) : (s.setSt b).rnd = s.rnd := rfl
@[simp] theorem setSt_events (s : State) (b : Byte) : (s.setSt b).events = s.events := rfl
@[simp] theorem setSt_draws (s : State) (b : Byte) : (s.setSt b).draws = s.draws := rfl
@[simp] theorem setSt_keyIndexMode (s : State) (b : Byte) : (s.setSt b).keyIndexMode = s.keyIndexMode := rfl
@[simp] theorem setSt_getV (s : State) (b : Byte) (q : Reg) : (s.setSt b).getV q = s.getV q := rfl
@[simp] theorem setSt_readByte (s : State) (b : Byte) (a : Nat) : (s.setSt b).readByte a = s.readByte a := rfl

/-! ### setRun -/

@[simp] theorem setRun_v (s : State) (r : Run) : (s.setRun r).v = s.v := rfl
@[simp] theorem setRun_i (s : State) (r : Run) : (s.setRun r).i = s.i := rfl
@[simp] theorem setRun_pc (s : State) (r : Run) : (s.setRun r).pc = s.pc := rfl
@[simp] theorem setRun_sp (s : State) (r : Run) : (s.setRun r).sp = s.sp := rfl
@[simp] theorem setRun_stack (s : State) (r : Run) : (s.setRun r).stack = s.stack := rfl
@[simp] theorem setRun_mem (s : State) (r : Run) : (s.setRun r).mem = s.mem := rfl
@[simp] theorem setRun_dt (s : State) (r : Run) : (s.setRun r).dt = s.dt := rfl
@[simp] theorem setRun_st (s : State) (r : Run) : (s.setRun r).st = s.st := rfl
@[simp] theorem setRun_fb (s : State) (r : Run) : (s.setRun r).fb = s.fb := rfl
@[simp] theorem setRun_ir (s : State) (r : Run) : (s.setRun r).ir = s.ir := rfl
@[simp] theorem setRun_run (s : State) (r : Run) : (s.setRun r).run = r := rfl
@[simp] theorem setRun_fault (s : State) (r : Run) : (s.setRun r).fault = s.fault := rfl
@[simp] theorem setRun_faultInfo (s : State) (r : Run) : (s.setRun r).faultInfo = s.faultInfo := rfl
@[simp] theorem setRun_key (s : State) (r : Run) : (s.setRun r).key = s.key := rfl
@[simp] theorem setRun_rnd (s : State) (r : Run) : (s.setRun r).rnd = s.rnd := rfl
@[simp] theorem setRun_events (s : State) (r : Run) : (s.setRun r).events = s.events := rfl
@[simp] theorem setRun_draws (s : State) (r : Run) : (s.setRun r).draws = s.draws := rfl
@[simp] theorem setRun_keyIndexMode (s : State) (r : Run) : (s.setRun r).keyIndexMode = s.keyIndexMode := rfl
@[simp] theorem setRun_getV (s : State) (r : Run) (q : Reg) : (s.setRun r).getV q = s.getV q := rfl
@[simp] theorem setRun_readByte (s : State) (r : Run) (a : Nat) : (s.setRun r).readByte a = s.readByte a := rfl

/-! ### setFb -/

@[simp] theorem setFb_v (s : State) (f : Framebuffer) : (s.setFb f).v = s.v := rfl
@[simp] theorem setFb_i (s : State) (f : Framebuffer) : (s.setFb f).i = s.i := rfl
@[simp] theorem setFb_pc (s : State) (f : Framebuffer) : (s.setFb f).pc = s.pc := rfl
@[simp] theorem setFb_sp (s : State) (f : Framebuffer) : (s.setFb f).sp = s.sp := rfl
@[simp] theorem setFb_stack (s : State) (f : Framebuffer) : (s.setFb f).stack = s.stack := rfl
@[simp] theorem setFb_mem (s : State) (f : Framebuffer) : (s.setFb f).mem = s.mem := rfl
@[simp] theorem setFb_dt (s : State) (f : Framebuffer) : (s.setFb f).dt = s.dt := rfl
@[simp] theorem setFb_st (s : State) (f : Framebuffer) : (s.setFb f).st = s.st := rfl
@[simp] theorem setFb_fb (s : State) (f : Framebuffer) : (s.setFb f).fb = f := rfl
@[simp] theorem setFb_ir (s : State) (f : Framebuffer) : (s.setFb f).ir = s.ir := rfl
@[simp] theorem setFb_run (s : State) (f : Framebuffer) : (s.setFb f).run = s.run := rfl
@[simp] theorem setFb_fault (s : State) (f : Framebuffer) : (s.setFb f).fault = s.fault := rfl
@[simp] theorem setFb_faultInfo (s : State) (f : Framebuffer) : (s.setFb f).faultInfo = s.faultInfo := rfl
@[simp] theorem setFb_key (s : State) (f : Framebuffer) : (s.setFb f).key = s.key := rfl
@[simp] theorem setFb_rnd (s : State) (f : Framebuffer) : (s.setFb f).rnd = s.rnd := rfl
@[simp] theorem setFb_events (s : State) (f : Framebuffer) : (s.setFb f).events = s.events := rfl
@[simp] theorem setFb_draws (s : State) (f : Framebuffer) : (s.setFb f).draws = s.draws := rfl
@[simp] theorem setFb_keyIndexMode (s : State) (f : Framebuffer) : (s.setFb f).keyIndexMode = s.keyIndexMode := rfl
@[simp] theorem setFb_getV (s : State) (f : Framebuffer) (q : Reg) : (s.setFb f).getV q = s.getV q := rfl
@[simp] theorem setFb_readByte (s : State) (f : Framebuffer) (a : Nat) : (s.setFb f).readByte a = s.readByte a := rfl

/-! ### setMem -/

@[simp] theorem setMem_v (s : State) (m : Memory) : (s.setMem m).v = s.v := rfl
@[simp] theorem setMem_i (s : State) (m : Memory) : (s.setMem m).i = s.i := rfl
@[simp] theorem setMem_pc (s : State) (m : Memory) : (s.setMem m).pc = s.pc := rfl
@[simp] theorem setMem_sp (s : State) (m : Memory) : (s.setMem m).sp = s.sp := rfl
@[simp] theorem setMem_stack (s : State) (m : Memory) : (s.setMem m).stack = s.stack := rfl
@[simp] theorem setMem_mem (s : State) (m : Memory) : (s.setMem m).mem = m := rfl
@[simp] theorem setMem_dt (s : State) (m : Memory) : (s.setMem m).dt = s.dt := rfl
@[simp] theorem setMem_st (s : State) (m : Memory) : (s.setMem m).st = s.st := rfl
@[simp] theorem setMem_fb (s : State) (m : Memory) : (s.setMem m).fb = s.fb := rfl
@[simp] theorem setMem_ir (s : State) (m : Memory) : (s.setMem m).ir = s.ir := rfl
@[simp] theorem setMem_run (s : State) (m : Memory) : (s.setMem m).run = s.run := rfl
@[simp] theorem setMem_fault (s : State) (m : Memory) : (s.setMem m).fault = s.fault := rfl
@[simp] theorem setMem_faultInfo (s : State) (m : Memory) : (s.setMem m).faultInfo = s.faultInfo := rfl
@[simp] theorem setMem_key (s : State) (m : Memory) : (s.setMem m).key = s.key := rfl
@[simp] theorem setMem_rnd (s : State) (m : Memory) : (s.setMem m).rnd = s.rnd := rfl
@[simp] theorem setMem_events (s : State) (m : Memory) : (s.setMem m).events = s.events := rfl
@[simp] theorem setMem_draws (s : State) (m : Memory) : (s.setMem m).draws = s.draws := rfl
@[simp] theorem setMem_keyIndexMode (s : State) (m : Memory) : (s.setMem m).keyIndexMode = s.keyIndexMode := rfl
@[simp] theorem setMem_getV (s : State) (m : Memory) (q : Reg) : (s.setMem m).getV q = s.getV q := rfl

/-! ### setAllV -/

@[simp] theorem setAllV_v (s : State) (v : Vector Byte 16) : (s.setAllV v).v = v := rfl
@[simp] theorem setAllV_i (s : State) (v : Vector Byte 16) : (s.setAllV v).i = s.i := rfl
@[simp] theorem setAllV_pc (s : State) (v : Vector Byte 16) : (s.setAllV v).pc = s.pc := rfl
@[simp] theorem setAllV_sp (s : State) (v : Vector Byte 16) : (s.setAllV v).sp = s.sp := rfl
@[simp] theorem setAllV_stack (s : State) (v : Vector Byte 16) : (s.setAllV v).stack = s.stack := rfl
@[simp] theorem setAllV_mem (s : State) (v : Vector Byte 16) : (s.setAllV v).mem = s.mem := rfl
@[simp] theorem setAllV_dt (s : State) (v : Vector Byte 16) : (s.setAllV v).dt = s.dt := rfl
@[simp] theorem setAllV_st (s : State) (v : Vector Byte 16) : (s.setAllV v).st = s.st := rfl
@[simp] theorem setAllV_fb (s : State) (v : Vector Byte 16) : (s.setAllV v).fb = s.fb := rfl
@[simp] theorem setAllV_ir (s : State) (v : Vector Byte 16) : (s.setAllV v).ir = s.ir := rfl
@[simp] theorem setAllV_run (s : State) (v : Vector Byte 16) : (s.setAllV v).run = s.run := rfl
@[simp] theorem setAllV_fault (s : State) (v : Vector Byte 16) : (s.setAllV v).fault = s.fault := rfl
@[simp] theorem setAllV_faultInfo (s : State) (v : Vector Byte 16) : (s.setAllV v).faultInfo = s.faultInfo := rfl
@[simp] theorem setAllV_key (s : State) (v : Vector Byte 16) : (s.setAllV v).key = s.key := rfl
@[simp] theorem setAllV_rnd (s : State) (v : Vector Byte 16) : (s.setAllV v).rnd = s.rnd := rfl
@[simp] theorem setAllV_events (s : State) (v : Vector Byte 16) : (s.setAllV v).events = s.events := rfl
@[simp] theorem setAllV_draws (s : State) (v : Vector Byte 16) : (s.setAllV v).draws = s.draws := rfl
@[simp] theorem setAllV_keyIndexMode (s : State) (v : Vector Byte 16) : (s.setAllV v).keyIndexMode = s.keyIndexMode := rfl
@[simp] theorem setAllV_readByte (s : State) (v : Vector Byte 16) (a : Nat) : (s.setAllV v).readByte a = s.readByte a := rfl

/-! ### raise -/

@[simp] theorem raise_v (s : State) (c : Cause) (n : Nat) : (s.raise c n).v = s.v := rfl
@[simp] theorem raise_i (s : State) (c : Cause) (n : Nat) : (s.raise c n).i = s.i := rfl
@[simp] theorem raise_pc (s : State) (c : Cause) (n : Nat) : (s.raise c n).pc = s.pc := rfl
@[simp] theorem raise_sp (s : State) (c : Cause) (n : Nat) : (s.raise c n).sp = s.sp := rfl
@[simp] theorem raise_stack (s : State) (c : Cause) (n : Nat) : (s.raise c n).stack = s.stack := rfl
@[simp] theorem raise_mem (s : State) (c : Cause) (n : Nat) : (s.raise c n).mem = s.mem := rfl
@[simp] theorem raise_dt (s : State) (c : Cause) (n : Nat) : (s.raise c n).dt = s.dt := rfl
@[simp] theorem raise_st (s : State) (c : Cause) (n : Nat) : (s.raise c n).st = s.st := rfl
@[simp] theorem raise_fb (s : State) (c : Cause) (n : Nat) : (s.raise c n).fb = s.fb := rfl
@[simp] theorem raise_ir (s : State) (c : Cause) (n : Nat) : (s.raise c n).ir = s.ir := rfl
@[simp] theorem raise_run (s : State) (c : Cause) (n : Nat) : (s.raise c n).run = .halted := rfl
@[simp] theorem raise_fault (s : State) (c : Cause) (n : Nat) : (s.raise c n).fault = c := rfl
@[simp] theorem raise_faultInfo (s : State) (c : Cause) (n : Nat) : (s.raise c n).faultInfo = BitVec.ofNat 17 n := rfl
@[simp] theorem raise_key (s : State) (c : Cause) (n : Nat) : (s.raise c n).key = s.key := rfl
@[simp] theorem raise_rnd (s : State) (c : Cause) (n : Nat) : (s.raise c n).rnd = s.rnd := rfl
@[simp] theorem raise_events (s : State) (c : Cause) (n : Nat) : (s.raise c n).events = s.events := rfl
@[simp] theorem raise_draws (s : State) (c : Cause) (n : Nat) : (s.raise c n).draws = s.draws := rfl
@[simp] theorem raise_keyIndexMode (s : State) (c : Cause) (n : Nat) : (s.raise c n).keyIndexMode = s.keyIndexMode := rfl
@[simp] theorem raise_getV (s : State) (c : Cause) (n : Nat) (q : Reg) : (s.raise c n).getV q = s.getV q := rfl
@[simp] theorem raise_readByte (s : State) (c : Cause) (n : Nat) (a : Nat) : (s.raise c n).readByte a = s.readByte a := rfl

/-! ### fetched -/

@[simp] theorem fetched_v (s : State) (k : Keys) (r : Byte) : (s.fetched k r).v = s.v := rfl
@[simp] theorem fetched_i (s : State) (k : Keys) (r : Byte) : (s.fetched k r).i = s.i := rfl
@[simp] theorem fetched_pc (s : State) (k : Keys) (r : Byte) : (s.fetched k r).pc = s.pc + 2 := rfl
@[simp] theorem fetched_sp (s : State) (k : Keys) (r : Byte) : (s.fetched k r).sp = s.sp := rfl
@[simp] theorem fetched_stack (s : State) (k : Keys) (r : Byte) : (s.fetched k r).stack = s.stack := rfl
@[simp] theorem fetched_mem (s : State) (k : Keys) (r : Byte) : (s.fetched k r).mem = s.mem := rfl
@[simp] theorem fetched_dt (s : State) (k : Keys) (r : Byte) : (s.fetched k r).dt = s.dt := rfl
@[simp] theorem fetched_st (s : State) (k : Keys) (r : Byte) : (s.fetched k r).st = s.st := rfl
@[simp] theorem fetched_fb (s : State) (k : Keys) (r : Byte) : (s.fetched k r).fb = s.fb := rfl
@[simp] theorem fetched_ir (s : State) (k : Keys) (r : Byte) : (s.fetched k r).ir = s.wordAt s.pc.toNat := rfl
@[simp] theorem fetched_run (s : State) (k : Keys) (r : Byte) : (s.fetched k r).run = s.run := rfl
@[simp] theorem fetched_fault (s : State) (k : Keys) (r : Byte) : (s.fetched k r).fault = s.fault := rfl
@[simp] theorem fetched_faultInfo (s : State) (k : Keys) (r : Byte) : (s.fetched k r).faultInfo = s.faultInfo := rfl
@[simp] theorem fetched_key (s : State) (k : Keys) (r : Byte) : (s.fetched k r).key = k := rfl
@[simp] theorem fetched_rnd (s : State) (k : Keys) (r : Byte) : (s.fetched k r).rnd = r := rfl
@[simp] theorem fetched_events (s : State) (k : Keys) (r : Byte) : (s.fetched k r).events = s.events := rfl
@[simp] theorem fetched_draws (s : State) (k : Keys) (r : Byte) : (s.fetched k r).draws = s.draws := rfl
@[simp] theorem fetched_keyIndexMode (s : State) (k : Keys) (r : Byte) : (s.fetched k r).keyIndexMode = s.keyIndexMode := rfl
@[simp] theorem fetched_getV (s : State) (k : Keys) (r : Byte) (q : Reg) : (s.fetched k r).getV q = s.getV q := rfl
@[simp] theorem fetched_readByte (s : State) (k : Keys) (r : Byte) (a : Nat) : (s.fetched k r).readByte a = s.readByte a := rfl

/-! ### warmReset -/

@[simp] theorem warmReset_v (s : State) : s.warmReset.v = State.reset.v := rfl
@[simp] theorem warmReset_i (s : State) : s.warmReset.i = State.reset.i := rfl
@[simp] theorem warmReset_pc (s : State) : s.warmReset.pc = State.reset.pc := rfl
@[simp] theorem warmReset_sp (s : State) : s.warmReset.sp = State.reset.sp := rfl
@[simp] theorem warmReset_stack (s : State) : s.warmReset.stack = State.reset.stack := rfl
@[simp] theorem warmReset_mem (s : State) : s.warmReset.mem = s.mem := rfl
@[simp] theorem warmReset_dt (s : State) : s.warmReset.dt = State.reset.dt := rfl
@[simp] theorem warmReset_st (s : State) : s.warmReset.st = State.reset.st := rfl
@[simp] theorem warmReset_fb (s : State) : s.warmReset.fb = State.reset.fb := rfl
@[simp] theorem warmReset_ir (s : State) : s.warmReset.ir = State.reset.ir := rfl
@[simp] theorem warmReset_run (s : State) : s.warmReset.run = State.reset.run := rfl
@[simp] theorem warmReset_fault (s : State) : s.warmReset.fault = State.reset.fault := rfl
@[simp] theorem warmReset_faultInfo (s : State) : s.warmReset.faultInfo = State.reset.faultInfo := rfl
@[simp] theorem warmReset_key (s : State) : s.warmReset.key = s.key := rfl
@[simp] theorem warmReset_rnd (s : State) : s.warmReset.rnd = s.rnd := rfl
@[simp] theorem warmReset_events (s : State) : s.warmReset.events = s.events := rfl
@[simp] theorem warmReset_draws (s : State) : s.warmReset.draws = s.draws := rfl
@[simp] theorem warmReset_keyIndexMode (s : State) : s.warmReset.keyIndexMode = s.keyIndexMode := rfl
@[simp] theorem warmReset_readByte (s : State) (a : Nat) : s.warmReset.readByte a = s.readByte a := rfl

/-! ### What a register reads as after a write -/

@[simp] theorem setV_getV (s : State) (r q : Reg) (b : Byte) :
    (s.setV r b).getV q = if q = r then b else s.getV q := by
  have h : (r.val = q.val) ↔ (q = r) := by rw [Fin.ext_iff, eq_comm]
  simp [State.setV, State.getV, Vector.getElem_set, h]

@[simp] theorem setVFlag_getV (s : State) (r q : Reg) (b f : Byte) :
    (s.setVFlag r b f).getV q = if q = VF then f else if q = r then b else s.getV q := by
  simp only [State.setVFlag, setV_getV]

@[simp] theorem setAllV_getV (s : State) (v : Vector Byte 16) (q : Reg) : (s.setAllV v).getV q = v[q.val] := rfl

@[simp] theorem warmReset_getV (s : State) (q : Reg) : s.warmReset.getV q = 0 := by
  simp [State.getV, State.reset]

@[simp] theorem setMem_readByte (s : State) (m : Memory) (a : Nat) : (s.setMem m).readByte a = Memory.read m a := rfl

/-! ### The state after reset -/

@[simp] theorem reset_getV (q : Reg) : State.reset.getV q = 0 := by simp [State.getV, State.reset]

@[simp] theorem reset_readByte (a : Nat) : State.reset.readByte a = bootByte a := rfl

end Sys2Proof.Machine
end

