-- ==== Sys2Proof/Laws/Ops.lean ====
section
/-! SUPPORT. One lemma per shared operation, saying once everything it does; later proofs cite these and unfold none of
them. -/

namespace Sys2Proof.Machine

/-! ### Frames -/

theorem Frame.refl (may : List Comp) (s : State) : Frame may s s := by simp [Frame]

/-- A longer list of components allows more. -/
theorem Frame.mono {may may' : List Comp} {s t : State} (h : Frame may s t) (hsub : ∀ c, c ∈ may → c ∈ may') :
    Frame may' s t := by
  obtain ⟨h1, h2, h3, h4, h5, h6, h7, h8, h9, h10, h11, h12, h13⟩ := h
  exact ⟨fun n => h1 fun m => n (hsub _ m), fun n => h2 fun m => n (hsub _ m), fun n => h3 fun m => n (hsub _ m),
    fun n => h4 fun m => n (hsub _ m), fun n => h5 fun m => n (hsub _ m), fun n => h6 fun m => n (hsub _ m),
    fun n => h7 fun m => n (hsub _ m), fun n => h8 fun m => n (hsub _ m), fun n => h9 fun m => n (hsub _ m),
    fun n => h10 fun m => n (hsub _ m), fun n => h11 fun m => n (hsub _ m), fun n => h12 fun m => n (hsub _ m), h13⟩

theorem frame_setV (s : State) (r : Reg) (b : Byte) : Frame [.v] s (s.setV r b) := by simp [Frame]
theorem frame_setVFlag (s : State) (r : Reg) (b f : Byte) : Frame [.v] s (s.setVFlag r b f) := by simp [Frame]
theorem frame_setI (s : State) (w : Word) : Frame [.i] s (s.setI w) := by simp [Frame]
theorem frame_setPc (s : State) (w : Word) : Frame [.pc] s (s.setPc w) := by simp [Frame]
theorem frame_setDt (s : State) (b : Byte) : Frame [.dt] s (s.setDt b) := by simp [Frame]
theorem frame_setSt (s : State) (b : Byte) : Frame [.st] s (s.setSt b) := by simp [Frame]
theorem frame_setRun (s : State) (r : Run) : Frame [.run] s (s.setRun r) := by simp [Frame]
theorem frame_setFb (s : State) (f : Framebuffer) : Frame [.fb] s (s.setFb f) := by simp [Frame]
theorem frame_setMem (s : State) (m : Memory) : Frame [.mem] s (s.setMem m) := by simp [Frame]
theorem frame_setAllV (s : State) (v : Vector Byte 16) : Frame [.v] s (s.setAllV v) := by simp [Frame]

theorem keepsV_setV (s : State) (r : Reg) (b : Byte) : KeepsV [r] s (s.setV r b) := by
  intro q hq; simp at hq; simp [hq]

theorem keepsV_setVFlag (s : State) (r : Reg) (b f : Byte) : KeepsV [r, VF] s (s.setVFlag r b f) := by
  intro q hq; simp only [List.mem_cons, List.not_mem_nil, or_false, not_or] at hq; simp [hq]

/-! ### Raising a condition -/

/-- `raise` halts the core with the cause and changes nothing else. -/
theorem raise_halts (s : State) (c : Cause) (n : Nat) : Halts c n s (s.raise c n) := by simp [Halts, Frame]

theorem checkRange_ok {a n : Nat} (s ok : State) (h : n = 0 ∨ a + n - 1 ≤ 0xFFF) : s.checkRange a n ok = ok := by
  rw [State.checkRange, if_neg (by omega)]

theorem checkRange_raise {a n : Nat} (s ok : State) (h : n ≠ 0) (h' : a + n - 1 > 0xFFF) :
    s.checkRange a n ok = s.raise .memoryOutOfBounds (a + n - 1) := by
  rw [State.checkRange, if_pos ⟨h, h'⟩]

/-- Either the range is inside MEM and the access happens, or the core halts with the last address. -/
theorem checkRange_cases (a n : Nat) (s ok : State) :
    ((n = 0 ∨ a + n - 1 ≤ 0xFFF) ∧ s.checkRange a n ok = ok) ∨
    (n ≠ 0 ∧ a + n - 1 > 0xFFF ∧ s.checkRange a n ok = s.raise .memoryOutOfBounds (a + n - 1)) := by
  by_cases h : n ≠ 0 ∧ a + n - 1 > 0xFFF
  · exact .inr ⟨h.1, h.2, checkRange_raise s ok h.1 h.2⟩
  · exact .inl ⟨by omega, checkRange_ok s ok (by omega)⟩

/-! ### The PC -/

theorem advancePC_ok (s : State) (h : s.pc.toNat + 2 ≤ 0xFFF) : s.advancePC = s.setPc (s.pc + 2) := by
  rw [State.advancePC, if_neg (by omega)]

theorem advancePC_raise (s : State) (h : s.pc.toNat + 2 > 0xFFF) :
    s.advancePC = s.raise .endOfMemory s.pc.toNat := by
  rw [State.advancePC, if_pos h]

/-- Everything a skip can do: nothing, an advance by 2, or the halt at the end of memory. -/
theorem skipIf_cases (taken : Bool) (s : State) :
    (taken = false ∧ s.skipIf taken = s) ∨
    (taken = true ∧ s.pc.toNat + 2 ≤ 0xFFF ∧ s.skipIf taken = s.setPc (s.pc + 2)) ∨
    (taken = true ∧ s.pc.toNat + 2 > 0xFFF ∧ s.skipIf taken = s.raise .endOfMemory s.pc.toNat) := by
  cases taken with
  | false => exact .inl ⟨rfl, rfl⟩
  | true =>
    by_cases h : s.pc.toNat + 2 ≤ 0xFFF
    · exact .inr (.inl ⟨rfl, h, advancePC_ok s h⟩)
    · exact .inr (.inr ⟨rfl, by omega, advancePC_raise s (by omega)⟩)

/-- The advanced PC as a number, below the end of memory. -/
theorem pc_add_two_toNat (w : Word) (h : w.toNat + 2 ≤ 0xFFF) : (w + 2).toNat = w.toNat + 2 := by
  rw [BitVec.toNat_add]; simp; omega

/-! ### The call stack -/

theorem pushAndJump_full (w : Word) (s : State) (h : s.sp.val = 16) : s.pushAndJump w = s.raise .stackOverflow 0 := by
  rw [State.pushAndJump, dif_pos h]

theorem pushAndJump_room (w : Word) (s : State) (h : s.sp.val < 16) :
    s.pushAndJump w =
      { s with stack := s.stack.set s.sp.val s.pc h, sp := ⟨s.sp.val + 1, by omega⟩, pc := w } := by
  rw [State.pushAndJump, dif_neg (by omega)]

theorem popAndJump_empty (s : State) (h : s.sp.val = 0) : s.popAndJump = s.raise .stackUnderflow 0 := by
  rw [State.popAndJump, dif_pos h]

theorem popAndJump_some (s : State) (h : 0 < s.sp.val) :
    s.popAndJump = { s with sp := ⟨s.sp.val - 1, by omega⟩, pc := s.stack[s.sp.val - 1] } := by
  rw [State.popAndJump, dif_neg (by omega)]

/-! ### The framebuffer -/

@[simp] theorem Framebuffer.pixel_clear (x : Fin 64) (y : Fin 32) : Framebuffer.pixel Framebuffer.clear x y = false := by
  simp [Framebuffer.pixel, Framebuffer.clear]

/-- An XOR changes one pixel, by the bit. -/
theorem Framebuffer.pixel_xorPixel (f : Framebuffer) (x x' : Fin 64) (y y' : Fin 32) (bit : Bool) :
    Framebuffer.pixel (Framebuffer.xorPixel f x y bit) x' y' =
      (Framebuffer.pixel f x' y' ^^ (bit && decide (x' = x ∧ y' = y))) := by
  unfold Framebuffer.pixel Framebuffer.xorPixel
  rw [Vector.getElem_set]
  by_cases hy : y = y'
  · subst hy
    by_cases hb : bit = true
    · subst hb
      by_cases hx : x' = x
      · subst hx; simp
      · have hx' : x'.val ≠ x.val := fun h => hx (Fin.ext h)
        by_cases hlt : x' < x
        · simp [hx, hlt]
        · have hsub : x'.val - x.val ≠ 0 := by rw [Fin.lt_def] at hlt; omega
          simp [hx, hsub]
    · simp [Bool.not_eq_true _ ▸ hb]
  · have hy' : y.val ≠ y'.val := fun h => hy (Fin.ext h)
    have hy'' : ¬ y' = y := fun h => hy h.symm
    simp [hy', hy'']

/-- Two framebuffers with the same pixels are the same. -/
theorem Framebuffer.ext_pixel {f g : Framebuffer}
    (h : ∀ x y, Framebuffer.pixel f x y = Framebuffer.pixel g x y) : f = g := by
  apply Vector.ext
  intro y hy
  apply BitVec.eq_of_getLsbD_eq
  intro x hx
  exact h ⟨x, hx⟩ ⟨y, hy⟩

/-! ### Keys and timers -/

theorem keyIndex_small (mode : KeyIndexMode) (b : Byte) (h : b.toNat ≤ 15) :
    keyIndex mode b = some ⟨b.toNat % 16, Nat.mod_lt _ (by decide)⟩ := by
  unfold keyIndex
  rw [dif_pos (by omega)]
  simp only [Option.some.injEq, Fin.mk.injEq]; omega

theorem keyIndex_mask4 (b : Byte) : keyIndex .mask4 b = some ⟨b.toNat % 16, Nat.mod_lt _ (by decide)⟩ := by
  by_cases h : b.toNat ≤ 15
  · exact keyIndex_small _ b h
  · unfold keyIndex
    rw [dif_neg (by omega)]

theorem keyIndex_fault (b : Byte) (h : b.toNat > 15) : keyIndex .fault b = none := by
  unfold keyIndex
  rw [dif_neg (by omega)]

/-- No key is selected exactly when no key is down. -/
theorem selectKey_eq_none_iff (k : Keys) : selectKey k = none ↔ k = 0 := by
  rw [selectKey, List.find?_eq_none]
  constructor
  · intro h
    apply BitVec.eq_of_getLsbD_eq
    intro j hj
    simpa [keyDown] using h ⟨j, hj⟩ (List.mem_finRange _)
  · rintro rfl j -
    simp [keyDown]

/-- The key selected is down, and no lower key is. -/
theorem selectKey_eq_some {k : Keys} {j : Fin 16} (h : selectKey k = some j) :
    k.getLsbD j.val = true ∧ ∀ j' : Fin 16, j' < j → k.getLsbD j'.val = false := by
  rw [selectKey, List.find?_eq_some_iff_getElem] at h
  obtain ⟨hd, n, hn, rfl, hlow⟩ := h
  refine ⟨hd, fun j' hj' => ?_⟩
  have hlt : j'.val < n := by simpa [Fin.lt_def] using hj'
  simpa [keyDown] using hlow j'.val hlt

theorem countDown_toNat (b : Byte) : (countDown b).toNat = b.toNat - 1 := by
  unfold countDown
  split_ifs with h
  · have := b.isLt
    rw [BitVec.toNat_sub]; simp; omega
  · omega

/-- The flag byte as a number. -/
theorem flagByte_toNat (b : Bool) : (flagByte b).toNat = if b then 1 else 0 := by cases b <;> rfl

/-- The bits the shifts put out, as numbers. -/
theorem shiftRightFlag_toNat (b : Byte) : (shiftRightFlag b).toNat = b.toNat % 2 := by
  rw [shiftRightFlag, flagByte_toNat, BitVec.getLsbD, Nat.testBit_zero]
  split <;> simp_all

theorem shiftLeftFlag_toNat (b : Byte) : (shiftLeftFlag b).toNat = b.toNat / 128 := by
  have := b.isLt
  rw [shiftLeftFlag, flagByte_toNat, BitVec.getLsbD, Nat.testBit_eq_decide_div_mod_eq]
  split <;> simp_all <;> omega

/-! ### Register transfers -/

@[simp] theorem regsThrough_length (s : State) (x : Reg) : (s.regsThrough x).length = x.val + 1 := by
  simp [State.regsThrough]

@[simp] theorem regsThrough_getElem (s : State) (x r : Reg) (h : r.val < (s.regsThrough x).length) :
    (s.regsThrough x)[r.val] = s.getV r := by
  simp [State.regsThrough, State.getV]

@[simp] theorem regsLoaded_getElem (s : State) (a : Nat) (x r : Reg) :
    (s.regsLoaded a x)[r.val] = if r.val ≤ x.val then s.readByte (a + r.val) else s.getV r := by
  simp [State.regsLoaded]

end Sys2Proof.Machine
end

