-- ==== Sys2Proof/Laws/Exec.lean ====
section
/-! SUPPORT. What each meaning answers, as one equation over the shared operations, and what a step answers by its next
event. Later proofs cite these and unfold no meaning. -/

namespace Sys2Proof.Machine

/-! ### The meanings -/

theorem exec_cls (s : State) :
    exec .cls s = .next (s.setFb Framebuffer.clear) := rfl

theorem exec_ret (s : State) :
    exec .ret s = .next (s.popAndJump) := rfl

theorem exec_jp (nnn : Addr12) (s : State) :
    exec (.jp nnn) s = .next (s.setPc (zextAddr nnn)) := rfl

theorem exec_call (nnn : Addr12) (s : State) :
    exec (.call nnn) s = .next (s.pushAndJump (zextAddr nnn)) := rfl

theorem exec_seImm (x : Reg) (nn : Byte) (s : State) :
    exec (.seImm x nn) s = .next (s.skipIf (decide (s.getV x = nn))) := rfl

theorem exec_sneImm (x : Reg) (nn : Byte) (s : State) :
    exec (.sneImm x nn) s = .next (s.skipIf (decide (s.getV x ≠ nn))) := rfl

theorem exec_seReg (x y : Reg) (s : State) :
    exec (.seReg x y) s = .next (s.skipIf (decide (s.getV x = s.getV y))) := rfl

theorem exec_ldImm (x : Reg) (nn : Byte) (s : State) :
    exec (.ldImm x nn) s = .next (s.setV x nn) := rfl

theorem exec_addImm (x : Reg) (nn : Byte) (s : State) :
    exec (.addImm x nn) s = .next (s.setV x (s.getV x + nn)) := rfl

theorem exec_ldReg (x y : Reg) (s : State) :
    exec (.ldReg x y) s = .next (s.setV x (s.getV y)) := rfl

theorem exec_orReg (x y : Reg) (s : State) :
    exec (.orReg x y) s = .next (s.setV x (s.getV x ||| s.getV y)) := rfl

theorem exec_andReg (x y : Reg) (s : State) :
    exec (.andReg x y) s = .next (s.setV x (s.getV x &&& s.getV y)) := rfl

theorem exec_xorReg (x y : Reg) (s : State) :
    exec (.xorReg x y) s = .next (s.setV x (s.getV x ^^^ s.getV y)) := rfl

theorem exec_addReg (x y : Reg) (s : State) :
    exec (.addReg x y) s = .next (s.setVFlag x (s.getV x + s.getV y) (carryFlag (s.getV x) (s.getV y))) := rfl

theorem exec_sub (x y : Reg) (s : State) :
    exec (.sub x y) s = .next (s.setVFlag x (s.getV x - s.getV y) (noBorrowFlag (s.getV x) (s.getV y))) := rfl

theorem exec_shr (x y : Reg) (s : State) :
    exec (.shr x y) s = .next (s.setVFlag x (s.getV x >>> 1) (shiftRightFlag (s.getV x))) := rfl

theorem exec_subn (x y : Reg) (s : State) :
    exec (.subn x y) s = .next (s.setVFlag x (s.getV y - s.getV x) (noBorrowFlag (s.getV y) (s.getV x))) := rfl

theorem exec_shl (x y : Reg) (s : State) :
    exec (.shl x y) s = .next (s.setVFlag x (s.getV x <<< 1) (shiftLeftFlag (s.getV x))) := rfl

theorem exec_sneReg (x y : Reg) (s : State) :
    exec (.sneReg x y) s = .next (s.skipIf (decide (s.getV x ≠ s.getV y))) := rfl

theorem exec_ldI (nnn : Addr12) (s : State) :
    exec (.ldI nnn) s = .next (s.setI (zextAddr nnn)) := rfl

theorem exec_jpV0 (nnn : Addr12) (s : State) :
    exec (.jpV0 nnn) s = .next (if s.indexedTarget nnn > 0x0FFF then s.raise .memoryOutOfBounds (s.indexedTarget nnn)
      else s.setPc (BitVec.ofNat 16 (s.indexedTarget nnn))) := rfl

theorem exec_rnd (x : Reg) (nn : Byte) (s : State) :
    exec (.rnd x nn) s = .next (s.setV x (s.rnd &&& nn)) := rfl

theorem exec_drw (x y : Reg) (n : Nibble) (s : State) :
    exec (.drw x y n) s = .next (s.checkRange (s.effAddr 0) n.toNat
      ((s.setFb (s.blit x y n.toNat).fb).setV VF (collisionFlag (s.blit x y n.toNat).collision))) := rfl

theorem exec_skp (x : Reg) (s : State) :
    exec (.skp x) s = .next (s.skipIfKey true x) := rfl

theorem exec_sknp (x : Reg) (s : State) :
    exec (.sknp x) s = .next (s.skipIfKey false x) := rfl

theorem exec_ldVxDt (x : Reg) (s : State) :
    exec (.ldVxDt x) s = .next (s.setV x s.dt) := rfl

theorem exec_ldVxK (x : Reg) (s : State) :
    exec (.ldVxK x) s = .next (s.setRun (.waitingForKey x)) := rfl

theorem exec_ldDtVx (x : Reg) (s : State) :
    exec (.ldDtVx x) s = .next (s.setDt (s.getV x)) := rfl

theorem exec_ldStVx (x : Reg) (s : State) :
    exec (.ldStVx x) s = .next (s.setSt (s.getV x)) := rfl

theorem exec_addI (x : Reg) (s : State) :
    exec (.addI x) s = .next (s.setI (s.indexSum x)) := rfl

theorem exec_ldF (x : Reg) (s : State) :
    exec (.ldF x) s = .next (s.setI (glyphAddr (s.getV x))) := rfl

theorem exec_ldB (x : Reg) (s : State) :
    exec (.ldB x) s = .next (s.checkRange (s.effAddr 0) 3
      (s.setMem (Memory.writeBytes s.mem (s.effAddr 0) (bcdDigits (s.getV x))))) := rfl

theorem exec_stRegs (x : Reg) (s : State) :
    exec (.stRegs x) s = .next (s.checkRange (s.effAddr 0) (x.val + 1)
      (s.setMem (Memory.writeBytes s.mem (s.effAddr 0) (s.regsThrough x)))) := rfl

theorem exec_ldRegs (x : Reg) (s : State) :
    exec (.ldRegs x) s = .next (s.checkRange (s.effAddr 0) (x.val + 1) (s.setAllV (s.regsLoaded (s.effAddr 0) x))) := rfl

/-! ### Keypad skips -/

theorem skipIfKey_none {s : State} {x : Reg} (down : Bool) (h : keyIndex s.keyIndexMode (s.getV x) = none) :
    s.skipIfKey down x = s.raise .keyIndexOutOfRange (s.getV x).toNat := by
  simp [State.skipIfKey, h]

theorem skipIfKey_some {s : State} {x : Reg} {k : Fin 16} (down : Bool)
    (h : keyIndex s.keyIndexMode (s.getV x) = some k) :
    s.skipIfKey down x = s.skipIf (keyDown s.key k == down) := by
  simp [State.skipIfKey, h]

/-- Everything a keypad skip can do: the halt for a bad index, or what a skip does. -/
theorem skipIfKey_cases (down : Bool) (x : Reg) (s : State) :
    s.skipIfKey down x = s.raise .keyIndexOutOfRange (s.getV x).toNat ∨ ∃ taken, s.skipIfKey down x = s.skipIf taken := by
  cases h : keyIndex s.keyIndexMode (s.getV x) with
  | none => exact .inl (skipIfKey_none down h)
  | some k => exact .inr ⟨_, skipIfKey_some down h⟩

/-! ### The step, by the next event -/

theorem step_of_event {s : State} {e : Event} {es : List Event} (h : s.events = e :: es) :
    step s = perform e { s with events := es } := by
  simp [step, State.nextEvent, h]

theorem step_of_no_event {s : State} (h : s.events = []) :
    step s = instrTick (Config.freeKeys s.draws) (Config.freeByte s.draws) { s with draws := s.draws + 1 } := by
  simp [step, State.nextEvent, h, perform]

/-- Everything a step can do: an event of `e` in a state that differs from `s` only in the model's own event fields. -/
theorem step_cases (s : State) :
    ∃ e es d, step s = perform e { s with events := es, draws := d } := by
  cases h : s.events with
  | nil => exact ⟨.instrTick (Config.freeKeys s.draws) (Config.freeByte s.draws), s.events, s.draws + 1, step_of_no_event h⟩
  | cons e es => exact ⟨e, es, s.draws, step_of_event h⟩

/-- The host's `run`, one step at a time. -/
theorem run_of_next {n : Nat} {s t : State} (h : step s = .next t) :
    Sys2Proof.core.run (n + 1) s = Sys2Proof.core.run n t := by
  have h' : Sys2Proof.core.step s = .next t := h
  simp only [Host.Core.run]
  rw [h']

theorem instrTick_halted {s : State} (k : Keys) (r : Byte) (h : s.run = .halted) : instrTick k r s = .next s := by
  simp [instrTick, h]

theorem instrTick_waiting {s : State} {x : Reg} (k : Keys) (r : Byte) (h : s.run = .waitingForKey x) :
    instrTick k r s = .next (s.waitStep x k) := by
  simp [instrTick, h]

theorem instrTick_running {s : State} (k : Keys) (r : Byte) (h : s.run = .running) :
    instrTick k r s = runInstr k r s := by
  simp [instrTick, h]

theorem runInstr_end {s : State} (k : Keys) (r : Byte) (h : s.pc.toNat + 2 > 0xFFF) :
    runInstr k r s = .next (s.raise .endOfMemory s.pc.toNat) := by
  rw [runInstr, if_pos h]

theorem runInstr_instr {s : State} {i : Instr} (k : Keys) (r : Byte) (h : s.pc.toNat + 2 ≤ 0xFFF)
    (hd : decodeWord (s.wordAt s.pc.toNat) = .instr i) : runInstr k r s = exec i (s.fetched k r) := by
  rw [runInstr, if_neg (by omega)]
  simp only [fetched_ir, hd]

theorem runInstr_unknown {s : State} {u : UnknownSet} (k : Keys) (r : Byte) (h : s.pc.toNat + 2 ≤ 0xFFF)
    (hd : decodeWord (s.wordAt s.pc.toNat) = .unknown u) : runInstr k r s = .next (s.fetched k r) := by
  rw [runInstr, if_neg (by omega)]
  simp only [fetched_ir, hd, execUnknown]

/-- Decoding a word never runs out of bytes. -/
theorem decodeWord_ne_truncated (w : Word) : decodeWord w ≠ .truncated := by
  simp only [decodeWord, decodeClass0, decodeClass8, decodeClassE, decodeClassF]
  split <;> first | (intro h; cases h) | skip
  all_goals (split <;> first | (intro h; cases h) | skip)
  all_goals (split <;> intro h <;> cases h)

/-- Everything a running tick can do: the halt at the end of memory, an instruction, or an unknown word's no-op. -/
theorem runInstr_cases (k : Keys) (r : Byte) (s : State) :
    (s.pc.toNat + 2 > 0xFFF ∧ runInstr k r s = .next (s.raise .endOfMemory s.pc.toNat)) ∨
    (s.pc.toNat + 2 ≤ 0xFFF ∧ ∃ i, decodeWord (s.wordAt s.pc.toNat) = .instr i ∧
      runInstr k r s = exec i (s.fetched k r)) ∨
    (s.pc.toNat + 2 ≤ 0xFFF ∧ ∃ u, decodeWord (s.wordAt s.pc.toNat) = .unknown u ∧
      runInstr k r s = .next (s.fetched k r)) := by
  by_cases h : s.pc.toNat + 2 ≤ 0xFFF
  · cases hd : decodeWord (s.wordAt s.pc.toNat) with
    | instr i => exact .inr (.inl ⟨h, i, rfl, runInstr_instr k r h hd⟩)
    | unknown u => exact .inr (.inr ⟨h, u, rfl, runInstr_unknown k r h hd⟩)
    | truncated => exact absurd hd (decodeWord_ne_truncated _)
  · exact .inl ⟨by omega, runInstr_end k r (by omega)⟩

theorem waitStep_none (s : State) (x : Reg) {k : Keys} (h : k = 0) : s.waitStep x k = s := by
  simp [State.waitStep, (selectKey_eq_none_iff k).mpr h]

theorem waitStep_some (s : State) (x : Reg) {k : Keys} {j : Fin 16} (h : selectKey k = some j) :
    s.waitStep x k = (s.setV x (BitVec.ofNat 8 j.val)).setRun .running := by
  simp [State.waitStep, h]

theorem timerTick_halted {s : State} (h : s.run = .halted) : s.timerTick = s := by simp [State.timerTick, h]

theorem timerTick_counting {s : State} (h : s.run ≠ .halted) :
    s.timerTick = (s.setDt (countDown s.dt)).setSt (countDown s.st) := by simp [State.timerTick, h]

/-! ### The pending events are not the instructions' -/

@[simp] theorem withEvents_events (s : State) (es : List Event) : (s.withEvents es).events = es := rfl

@[simp] theorem withEvents_withEvents (s : State) (es es' : List Event) :
    (s.withEvents es).withEvents es' = s.withEvents es' := rfl

theorem withEvents_of_eq {s : State} {es : List Event} (h : s.events = es) : s.withEvents es = s := by
  subst h
  rfl

theorem skipIf_withEvents (c : Bool) (s : State) (es : List Event) :
    State.skipIf c (s.withEvents es) = (s.skipIf c).withEvents es := by
  cases c with
  | false => rfl
  | true =>
    by_cases h : s.pc.toNat + 2 ≤ 0xFFF
    · exact (advancePC_ok (s.withEvents es) h).trans (congrArg (State.withEvents es) (advancePC_ok s h).symm)
    · exact (advancePC_raise (s.withEvents es) (by show s.pc.toNat + 2 > 0xFFF; omega)).trans
        (congrArg (State.withEvents es) (advancePC_raise s (by omega)).symm)

theorem checkRange_withEvents (a n : Nat) (s ok : State) (es : List Event) :
    State.checkRange a n (s.withEvents es) (ok.withEvents es) = (s.checkRange a n ok).withEvents es := by
  by_cases h : n = 0 ∨ a + n - 1 ≤ 0xFFF
  · rw [checkRange_ok _ _ h, checkRange_ok _ _ h]
  · rw [checkRange_raise _ _ (by omega) (by omega), checkRange_raise _ _ (by omega) (by omega)]
    rfl

theorem skipIfKey_withEvents (down : Bool) (x : Reg) (s : State) (es : List Event) :
    State.skipIfKey down x (s.withEvents es) = (s.skipIfKey down x).withEvents es := by
  have e : State.getV (s.withEvents es) x = s.getV x := rfl
  cases h : keyIndex s.keyIndexMode (s.getV x) with
  | none => rw [skipIfKey_none down h, skipIfKey_none down (e ▸ h)]; rfl
  | some k => rw [skipIfKey_some down h, skipIfKey_some down (e ▸ h)]; exact skipIf_withEvents _ s es

/-- No instruction reads or writes the pending events. -/
theorem exec_withEvents {i : Instr} {s t : State} (es : List Event) (h : exec i s = .next t) :
    exec i (s.withEvents es) = .next (t.withEvents es) := by
  cases i with
  | ret =>
    injection h with h
    subst h
    refine congrArg Host.Outcome.next ?_
    by_cases hs : s.sp.val = 0
    · exact (popAndJump_empty (s.withEvents es) hs).trans (congrArg (State.withEvents es) (popAndJump_empty s hs).symm)
    · have hs' : 0 < s.sp.val := by omega
      exact (popAndJump_some (s.withEvents es) hs').trans (congrArg (State.withEvents es) (popAndJump_some s hs').symm)
  | call nnn =>
    injection h with h
    subst h
    refine congrArg Host.Outcome.next ?_
    by_cases hs : s.sp.val = 16
    · exact (pushAndJump_full _ (s.withEvents es) hs).trans
        (congrArg (State.withEvents es) (pushAndJump_full _ s hs).symm)
    · have hs' : s.sp.val < 16 := by omega
      exact (pushAndJump_room _ (s.withEvents es) hs').trans
        (congrArg (State.withEvents es) (pushAndJump_room _ s hs').symm)
  | seImm x nn => injection h with h; subst h; exact congrArg Host.Outcome.next (skipIf_withEvents _ s es)
  | sneImm x nn => injection h with h; subst h; exact congrArg Host.Outcome.next (skipIf_withEvents _ s es)
  | seReg x y => injection h with h; subst h; exact congrArg Host.Outcome.next (skipIf_withEvents _ s es)
  | sneReg x y => injection h with h; subst h; exact congrArg Host.Outcome.next (skipIf_withEvents _ s es)
  | skp x => injection h with h; subst h; exact congrArg Host.Outcome.next (skipIfKey_withEvents true x s es)
  | sknp x => injection h with h; subst h; exact congrArg Host.Outcome.next (skipIfKey_withEvents false x s es)
  | jpV0 nnn =>
    injection h with h
    subst h
    rw [exec_jpV0]
    by_cases ht : s.indexedTarget nnn > 0xFFF
    · rw [if_pos (show (s.withEvents es).indexedTarget nnn > 0xFFF from ht), if_pos ht]
      rfl
    · rw [if_neg (show ¬ (s.withEvents es).indexedTarget nnn > 0xFFF from ht), if_neg ht]
      rfl
  | drw x y n =>
    injection h with h
    subst h
    exact congrArg Host.Outcome.next (checkRange_withEvents _ _ s
      ((s.setFb (s.blit x y n.toNat).fb).setV VF (collisionFlag (s.blit x y n.toNat).collision)) es)
  | ldB x =>
    injection h with h
    subst h
    exact congrArg Host.Outcome.next (checkRange_withEvents _ _ s
      (s.setMem (Memory.writeBytes s.mem (s.effAddr 0) (bcdDigits (s.getV x)))) es)
  | stRegs x =>
    injection h with h
    subst h
    exact congrArg Host.Outcome.next (checkRange_withEvents _ _ s
      (s.setMem (Memory.writeBytes s.mem (s.effAddr 0) (s.regsThrough x))) es)
  | ldRegs x =>
    rw [exec_ldRegs] at h ⊢
    have e : State.regsLoaded (s.withEvents es) (State.effAddr (s.withEvents es) 0) x =
      s.regsLoaded (s.effAddr 0) x := rfl
    rw [e]
    generalize s.regsLoaded _ _ = w at h ⊢
    injection h with h
    subst h
    exact congrArg Host.Outcome.next (checkRange_withEvents _ _ s (s.setAllV w) es)
  | _ => injection h with h; subst h; rfl

/-- No instruction tick reads or writes the pending events. -/
theorem instrTick_withEvents {k : Keys} {r : Byte} {s t : State} (es : List Event) (h : instrTick k r s = .next t) :
    instrTick k r (s.withEvents es) = .next (t.withEvents es) := by
  obtain ⟨q, hr⟩ : ∃ q, s.run = q := ⟨_, rfl⟩
  cases q with
  | halted =>
    rw [instrTick_halted k r hr] at h
    injection h with h
    subst h
    exact instrTick_halted (s := s.withEvents es) k r hr
  | waitingForKey x =>
    rw [instrTick_waiting k r hr] at h
    injection h with h
    subst h
    rw [instrTick_waiting k r (s := s.withEvents es) hr]
    cases hk : selectKey k with
    | none =>
      have hk0 := (selectKey_eq_none_iff k).mp hk
      rw [waitStep_none s x hk0, waitStep_none (s.withEvents es) x hk0]
    | some j =>
      rw [waitStep_some s x hk, waitStep_some (s.withEvents es) x hk]
      rfl
  | running =>
    rw [instrTick_running k r hr] at h
    rw [instrTick_running k r (s := s.withEvents es) hr]
    rcases runInstr_cases k r s with ⟨hp, e⟩ | ⟨hp, i, hd, e⟩ | ⟨hp, u, hd, e⟩
    · rw [e] at h
      injection h with h
      subst h
      exact runInstr_end (s := s.withEvents es) k r hp
    · rw [e] at h
      exact (runInstr_instr (s := s.withEvents es) k r hp hd).trans (exec_withEvents es h)
    · rw [e] at h
      injection h with h
      subst h
      exact runInstr_unknown (s := s.withEvents es) k r hp hd

/-- No event reads or writes the events that come after it. -/
theorem perform_withEvents {e : Event} {s t : State} (es : List Event) (h : perform e s = .next t) :
    perform e (s.withEvents es) = .next (t.withEvents es) := by
  cases e with
  | instrTick k r => exact instrTick_withEvents es h
  | timerTick =>
    injection h with h
    subst h
    refine congrArg Host.Outcome.next ?_
    by_cases hr : s.run = .halted
    · exact (timerTick_halted (s := s.withEvents es) hr).trans (congrArg (State.withEvents es) (timerTick_halted hr).symm)
    · exact (timerTick_counting (s := s.withEvents es) hr).trans
        (congrArg (State.withEvents es) (timerTick_counting hr).symm)
  | reset =>
    injection h with h
    subst h
    rfl

theorem step_withEvents (e : Event) (es : List Event) (s : State) :
    step (s.withEvents (e :: es)) = perform e (s.withEvents es) := rfl

end Sys2Proof.Machine
end

