-- ==== Sys2Proof/Laws/Display.lean ====
section
/-! SUPPORT. The blitter: within one draw no pixel is visited twice (43_display.md R112), so drawing a sprite is one XOR by
the pixels its bits fall on, and the collision is recorded by the framebuffer as it was before. -/

namespace Sys2Proof.Machine

/-- Column `col` of a sprite row at `ox` falls on column `px` of the framebuffer with a 1 bit, for some `col` of `cols`. -/
def rowBit (ox : Nat) (b : Byte) (cols : List Nat) (px : Fin 64) : Bool :=
  cols.any fun col => spriteBit b col && decide (targetX ox col = px)

theorem targetX_inj {ox c c' : Nat} (hc : c < 8) (hc' : c' < 8) (h : targetX ox c = targetX ox c') : c = c' := by
  simp only [targetX, Fin.mk.injEq] at h; omega

theorem targetY_inj {oy r r' : Nat} (hr : r < 32) (hr' : r' < 32) (h : targetY oy r = targetY oy r') : r = r' := by
  simp only [targetY, Fin.mk.injEq] at h; omega

/-- The pixels after drawing some distinct columns of one row. -/
theorem drawCols_pixel (ox oy row : Nat) (b : Byte) (cols : List Nat) (hlt : ∀ c ∈ cols, c < 8) (hnd : cols.Nodup)
    (d : Blit) (px : Fin 64) (py : Fin 32) :
    Framebuffer.pixel (cols.foldl (fun d col => d.plot (targetX ox col) (targetY oy row) (spriteBit b col)) d).fb px py =
      (Framebuffer.pixel d.fb px py ^^ (rowBit ox b cols px && decide (targetY oy row = py))) := by
  induction cols generalizing d with
  | nil => simp [rowBit]
  | cons c cs ih =>
    rw [List.foldl_cons, ih (fun c' h => hlt c' (List.mem_cons_of_mem _ h)) (List.nodup_cons.mp hnd).2]
    simp only [Blit.plot, Framebuffer.pixel_xorPixel]
    by_cases hx : targetX ox c = px
    · have hno : rowBit ox b cs px = false := by
        simp only [rowBit, List.any_eq_false, Bool.and_eq_true, decide_eq_true_eq, not_and]
        intro c' hc' _ hx'
        have : c = c' := targetX_inj (hlt c (by simp)) (hlt c' (List.mem_cons_of_mem _ hc')) (hx.trans hx'.symm)
        exact (List.nodup_cons.mp hnd).1 (this ▸ hc')
      have hcons : rowBit ox b (c :: cs) px = spriteBit b c := by
        have : rowBit ox b (c :: cs) px = (spriteBit b c && decide (targetX ox c = px) || rowBit ox b cs px) := rfl
        rw [this, hno, decide_eq_true hx]; simp
      rw [hno, hcons]
      simp [hx, eq_comm]
    · have hcons : rowBit ox b (c :: cs) px = rowBit ox b cs px := by
        have : rowBit ox b (c :: cs) px = (spriteBit b c && decide (targetX ox c = px) || rowBit ox b cs px) := rfl
        rw [this, decide_eq_false hx]; simp
      have hx' : ¬ px = targetX ox c := fun h => hx h.symm
      rw [hcons]
      simp [hx']

/-- The collision after drawing some distinct columns of one row, by the pixels as they were before. -/
theorem drawCols_collision (ox oy row : Nat) (b : Byte) (cols : List Nat) (hlt : ∀ c ∈ cols, c < 8) (hnd : cols.Nodup)
    (d : Blit) :
    (cols.foldl (fun d col => d.plot (targetX ox col) (targetY oy row) (spriteBit b col)) d).collision =
      (d.collision || cols.any fun c => spriteBit b c && Framebuffer.pixel d.fb (targetX ox c) (targetY oy row)) := by
  induction cols generalizing d with
  | nil => simp
  | cons c cs ih =>
    rw [List.foldl_cons, ih (fun c' h => hlt c' (List.mem_cons_of_mem _ h)) (List.nodup_cons.mp hnd).2]
    have hsame : (cs.any fun c' => spriteBit b c' &&
          Framebuffer.pixel (d.plot (targetX ox c) (targetY oy row) (spriteBit b c)).fb (targetX ox c') (targetY oy row)) =
        cs.any fun c' => spriteBit b c' && Framebuffer.pixel d.fb (targetX ox c') (targetY oy row) := by
      rw [Bool.eq_iff_iff, List.any_eq_true, List.any_eq_true]
      refine exists_congr fun c' => and_congr_right fun hc' => ?_
      have hne : ¬ targetX ox c' = targetX ox c := fun h =>
        (List.nodup_cons.mp hnd).1 ((targetX_inj (hlt c' (List.mem_cons_of_mem _ hc')) (hlt c (by simp)) h) ▸ hc')
      simp [Blit.plot, Framebuffer.pixel_xorPixel, hne]
    rw [hsame]
    simp [Blit.plot, List.any_cons, Bool.or_assoc]

/-- The pixels after one row. -/
theorem drawRow_pixel (ox oy row : Nat) (b : Byte) (d : Blit) (px : Fin 64) (py : Fin 32) :
    Framebuffer.pixel (Blit.drawRow ox oy row b d).fb px py =
      (Framebuffer.pixel d.fb px py ^^ (rowBit ox b (List.range 8) px && decide (targetY oy row = py))) :=
  drawCols_pixel ox oy row b (List.range 8) (fun _ h => List.mem_range.mp h) List.nodup_range d px py

/-- The collision after one row. -/
theorem drawRow_collision (ox oy row : Nat) (b : Byte) (d : Blit) :
    (Blit.drawRow ox oy row b d).collision = (d.collision || (List.range 8).any fun c =>
      spriteBit b c && Framebuffer.pixel d.fb (targetX ox c) (targetY oy row)) :=
  drawCols_collision ox oy row b (List.range 8) (fun _ h => List.mem_range.mp h) List.nodup_range d

/-- A sprite whose rows start at row number `row` has a 1 bit on the pixel. -/
def SpriteBitAt (ox oy row : Nat) (bs : List Byte) (px : Fin 64) (py : Fin 32) : Prop :=
  ∃ (k : Nat) (h : k < bs.length) (c : Nat), c < 8 ∧ targetX ox c = px ∧ targetY oy (row + k) = py ∧
    spriteBit bs[k] c = true

theorem rowBit_range_iff (ox : Nat) (b : Byte) (px : Fin 64) :
    rowBit ox b (List.range 8) px = true ↔ ∃ c, c < 8 ∧ targetX ox c = px ∧ spriteBit b c = true := by
  simp only [rowBit, List.any_eq_true, List.mem_range, Bool.and_eq_true, decide_eq_true_eq]
  exact exists_congr fun c => and_congr_right fun _ => and_comm

/-- The first row's bits, or the later rows'. -/
theorem SpriteBitAt_cons (ox oy row : Nat) (b : Byte) (bs : List Byte) (px : Fin 64) (py : Fin 32) :
    SpriteBitAt ox oy row (b :: bs) px py ↔
      (rowBit ox b (List.range 8) px = true ∧ targetY oy row = py) ∨ SpriteBitAt ox oy (row + 1) bs px py := by
  rw [rowBit_range_iff]
  constructor
  · rintro ⟨k, hk, c, hc, hx, hy, hb⟩
    cases k with
    | zero => exact .inl ⟨⟨c, hc, hx, hb⟩, hy⟩
    | succ k => exact .inr ⟨k, by simpa using hk, c, hc, hx, by rw [← hy]; congr 1; omega, by simpa using hb⟩
  · rintro (⟨⟨c, hc, hx, hb⟩, hy⟩ | ⟨k, hk, c, hc, hx, hy, hb⟩)
    · exact ⟨0, by simp, c, hc, hx, hy, hb⟩
    · exact ⟨k + 1, by simpa using hk, c, hc, hx, by rw [← hy]; congr 1; omega, by simpa using hb⟩

/-- Later rows never fall on the first one's framebuffer row. -/
theorem SpriteBitAt_later_row {ox oy row : Nat} {bs : List Byte} (hlen : row + bs.length < 32) {px : Fin 64} {py : Fin 32}
    (h : SpriteBitAt ox oy (row + 1) bs px py) : targetY oy row ≠ py := by
  obtain ⟨k, hk, c, -, -, hy, -⟩ := h
  intro hy'
  have := targetY_inj (oy := oy) (r := row) (r' := row + 1 + k) (by omega) (by omega) (hy'.trans hy.symm)
  omega

/-- The pixels after a whole sprite: each old pixel, turned over where the sprite has a 1 bit. -/
theorem drawRows_pixel (ox oy row : Nat) (bs : List Byte) (hlen : row + bs.length ≤ 32) (d : Blit) (px : Fin 64)
    (py : Fin 32) :
    Framebuffer.pixel (Blit.drawRows ox oy row bs d).fb px py = true ↔
      ¬ (Framebuffer.pixel d.fb px py = true ↔ SpriteBitAt ox oy row bs px py) := by
  induction bs generalizing row d with
  | nil =>
    have : ¬ SpriteBitAt ox oy row [] px py := by rintro ⟨k, hk, -⟩; simp at hk
    simp [Blit.drawRows, this]
  | cons b bs ih =>
    simp only [List.length_cons] at hlen
    rw [Blit.drawRows, ih (row + 1) (by omega), drawRow_pixel, SpriteBitAt_cons]
    by_cases hl : SpriteBitAt ox oy (row + 1) bs px py
    · have hy := SpriteBitAt_later_row (row := row) (by omega) hl
      simp [hl, hy]
    · by_cases hr : rowBit ox b (List.range 8) px = true ∧ targetY oy row = py
      · simp [hl, hr.1, hr.2]
      · have hr' : (rowBit ox b (List.range 8) px && decide (targetY oy row = py)) = false := by
          rw [Bool.eq_false_iff]; simpa using hr
        simp only [hr', hl, hr, Bool.xor_false, or_self]

/-- The collision after a whole sprite: one of its 1 bits fell on a pixel that was lit before. -/
theorem drawRows_collision (ox oy row : Nat) (bs : List Byte) (hlen : row + bs.length ≤ 32) (d : Blit) :
    (Blit.drawRows ox oy row bs d).collision = true ↔
      d.collision = true ∨ ∃ px py, SpriteBitAt ox oy row bs px py ∧ Framebuffer.pixel d.fb px py = true := by
  induction bs generalizing row d with
  | nil =>
    have : ∀ px py, ¬ SpriteBitAt ox oy row [] px py := by rintro px py ⟨k, hk, -⟩; simp at hk
    simp [Blit.drawRows, this]
  | cons b bs ih =>
    simp only [List.length_cons] at hlen
    rw [Blit.drawRows, ih (row + 1) (by omega), drawRow_collision, Bool.or_eq_true, or_assoc]
    refine or_congr_right ?_
    constructor
    · rintro (h | ⟨px, py, hs, hp⟩)
      · obtain ⟨c, hc, h⟩ := List.any_eq_true.mp h
        rw [Bool.and_eq_true] at h
        exact ⟨_, _, (SpriteBitAt_cons ..).mpr (.inl ⟨(rowBit_range_iff ..).mpr
          ⟨c, List.mem_range.mp hc, rfl, h.1⟩, rfl⟩), h.2⟩
      · have hy := SpriteBitAt_later_row (row := row) (by omega) hs
        rw [drawRow_pixel] at hp
        exact ⟨px, py, (SpriteBitAt_cons ..).mpr (.inr hs), by simpa [hy] using hp⟩
    · rintro ⟨px, py, hs, hp⟩
      rcases (SpriteBitAt_cons ..).mp hs with ⟨hr, rfl⟩ | hl
      · obtain ⟨c, hc, rfl, hb⟩ := (rowBit_range_iff ..).mp hr
        exact .inl (List.any_eq_true.mpr ⟨c, List.mem_range.mpr hc, by simp [hb, hp]⟩)
      · have hy := SpriteBitAt_later_row (row := row) (by omega) hl
        exact .inr ⟨px, py, hl, by rw [drawRow_pixel]; simp [hy, hp]⟩

/-- The bits of the sprite a `DXYN` draws are those of `SpriteHits`. -/
theorem SpriteBitAt_iff_hits (s : State) (x y : Reg) (n : Nibble) (px : Fin 64) (py : Fin 32) :
    SpriteBitAt (s.originX x) (s.originY y) 0 (Memory.readBytes s.mem (s.effAddr 0) n.toNat) px py ↔
      SpriteHits s x y n px py := by
  unfold SpriteBitAt SpriteHits
  constructor
  · rintro ⟨k, hk, c, hc, hx, hy, hb⟩
    refine ⟨k, c, by simpa using hk, hc, congrArg Fin.val hx, ?_, ?_⟩
    · simpa [targetY, State.originY] using congrArg Fin.val hy
    · simpa [spriteBit, State.readByte, State.effAddr] using hb
  · rintro ⟨k, c, hk, hc, hx, hy, hb⟩
    refine ⟨k, by simpa using hk, c, hc, Fin.ext hx, Fin.ext ?_, ?_⟩
    · simpa [targetY, State.originY] using hy
    · simpa [spriteBit, State.readByte, State.effAddr] using hb

end Sys2Proof.Machine
end

