-- ==== Sys2Proof/Laws/PerInstr.lean ====
section
/-! SUPPORT. The statements made of every instruction, one lemma per constructor. The family `EncodesInRow`: an instruction's
word selects the row of 30_encoding.md R63 that belongs to it, whatever the operands. -/

namespace Sys2Proof.Laws.EncodesInRow

open Sys2Proof

/-- The instruction's word, masked by its row's mask, is its row's pattern, and that row is one of the 34 (R63). -/
def Statement (i : Instr) : Prop := i.row ∈ opcodeRows ∧ encode i &&& i.row.mask = i.row.pattern

/-- Every instruction's row is in the table. -/
theorem row_listed (i : Instr) : i.row ∈ opcodeRows := by
  cases i <;> simp [opcodeRows, Instr.row]

/-- A row whose mask is the whole word. -/
theorem of_word {w : Word} : w &&& 0xFFFF = w := and_maskWord w

/-- A row that selects on the class alone, format `NNN`. -/
theorem of_classNNN (c : Nibble) (nnn : Addr12) : encodeNNN c nnn &&& 0xF000 = encodeNNN c 0 := by
  simp only [and_maskClass, fields_encodeNNN]

/-- A row that selects on the class alone, format `XNN`. -/
theorem of_classXNN (c : Nibble) (x : Reg) (nn : Byte) : encodeXNN c x nn &&& 0xF000 = encodeNNN c 0 := by
  simp only [and_maskClass, fields_encodeXNN]

/-- A row that selects on the class alone, format `XYN`. -/
theorem of_classXYN (c : Nibble) (x y : Reg) (n : Nibble) : encodeXYN c x y n &&& 0xF000 = encodeNNN c 0 := by
  simp only [and_maskClass, fields_encodeXYN]

/-- A row that selects on the class and the low nibble. -/
theorem of_classNibble (c : Nibble) (x y : Reg) (n : Nibble) : encodeXYN c x y n &&& 0xF00F = encodeXYN c 0 0 n := by
  simp only [and_maskClassNibble, fields_encodeXYN]

/-- A row that selects on the class and the low byte. -/
theorem of_classByte (c : Nibble) (x : Reg) (nn : Byte) : encodeXNN c x nn &&& 0xF0FF = encodeXNN c 0 nn := by
  simp only [and_maskClassByte, fields_encodeXNN]

theorem cls : Statement .cls := ⟨row_listed _, of_word⟩
theorem ret : Statement .ret := ⟨row_listed _, of_word⟩
theorem jp (nnn : Addr12) : Statement (.jp nnn) := ⟨row_listed _, of_classNNN 0x1 nnn⟩
theorem call (nnn : Addr12) : Statement (.call nnn) := ⟨row_listed _, of_classNNN 0x2 nnn⟩
theorem seImm (x : Reg) (nn : Byte) : Statement (.seImm x nn) := ⟨row_listed _, of_classXNN 0x3 x nn⟩
theorem sneImm (x : Reg) (nn : Byte) : Statement (.sneImm x nn) := ⟨row_listed _, of_classXNN 0x4 x nn⟩
theorem seReg (x y : Reg) : Statement (.seReg x y) := ⟨row_listed _, of_classNibble 0x5 x y 0x0⟩
theorem ldImm (x : Reg) (nn : Byte) : Statement (.ldImm x nn) := ⟨row_listed _, of_classXNN 0x6 x nn⟩
theorem addImm (x : Reg) (nn : Byte) : Statement (.addImm x nn) := ⟨row_listed _, of_classXNN 0x7 x nn⟩
theorem ldReg (x y : Reg) : Statement (.ldReg x y) := ⟨row_listed _, of_classNibble 0x8 x y 0x0⟩
theorem orReg (x y : Reg) : Statement (.orReg x y) := ⟨row_listed _, of_classNibble 0x8 x y 0x1⟩
theorem andReg (x y : Reg) : Statement (.andReg x y) := ⟨row_listed _, of_classNibble 0x8 x y 0x2⟩
theorem xorReg (x y : Reg) : Statement (.xorReg x y) := ⟨row_listed _, of_classNibble 0x8 x y 0x3⟩
theorem addReg (x y : Reg) : Statement (.addReg x y) := ⟨row_listed _, of_classNibble 0x8 x y 0x4⟩
theorem sub (x y : Reg) : Statement (.sub x y) := ⟨row_listed _, of_classNibble 0x8 x y 0x5⟩
theorem shr (x y : Reg) : Statement (.shr x y) := ⟨row_listed _, of_classNibble 0x8 x y 0x6⟩
theorem subn (x y : Reg) : Statement (.subn x y) := ⟨row_listed _, of_classNibble 0x8 x y 0x7⟩
theorem shl (x y : Reg) : Statement (.shl x y) := ⟨row_listed _, of_classNibble 0x8 x y 0xE⟩
theorem sneReg (x y : Reg) : Statement (.sneReg x y) := ⟨row_listed _, of_classNibble 0x9 x y 0x0⟩
theorem ldI (nnn : Addr12) : Statement (.ldI nnn) := ⟨row_listed _, of_classNNN 0xA nnn⟩
theorem jpV0 (nnn : Addr12) : Statement (.jpV0 nnn) := ⟨row_listed _, of_classNNN 0xB nnn⟩
theorem rnd (x : Reg) (nn : Byte) : Statement (.rnd x nn) := ⟨row_listed _, of_classXNN 0xC x nn⟩
theorem drw (x y : Reg) (n : Nibble) : Statement (.drw x y n) := ⟨row_listed _, of_classXYN 0xD x y n⟩
theorem skp (x : Reg) : Statement (.skp x) := ⟨row_listed _, of_classByte 0xE x 0x9E⟩
theorem sknp (x : Reg) : Statement (.sknp x) := ⟨row_listed _, of_classByte 0xE x 0xA1⟩
theorem ldVxDt (x : Reg) : Statement (.ldVxDt x) := ⟨row_listed _, of_classByte 0xF x 0x07⟩
theorem ldVxK (x : Reg) : Statement (.ldVxK x) := ⟨row_listed _, of_classByte 0xF x 0x0A⟩
theorem ldDtVx (x : Reg) : Statement (.ldDtVx x) := ⟨row_listed _, of_classByte 0xF x 0x15⟩
theorem ldStVx (x : Reg) : Statement (.ldStVx x) := ⟨row_listed _, of_classByte 0xF x 0x18⟩
theorem addI (x : Reg) : Statement (.addI x) := ⟨row_listed _, of_classByte 0xF x 0x1E⟩
theorem ldF (x : Reg) : Statement (.ldF x) := ⟨row_listed _, of_classByte 0xF x 0x29⟩
theorem ldB (x : Reg) : Statement (.ldB x) := ⟨row_listed _, of_classByte 0xF x 0x33⟩
theorem stRegs (x : Reg) : Statement (.stRegs x) := ⟨row_listed _, of_classByte 0xF x 0x55⟩
theorem ldRegs (x : Reg) : Statement (.ldRegs x) := ⟨row_listed _, of_classByte 0xF x 0x65⟩

end Sys2Proof.Laws.EncodesInRow
end

