-- ==== Sys2Proof/Tests/Slice0.lean ====
section
/-! SUPPORT. Tests of one word or one step each. Expected values come from spec/95_test_vectors.md (the id or table is named)
or, where a comment says so, by hand from the rule. The last part gives, for every statement of
Certificates/Slice0/Obligations.lean that has hypotheses, states and operands that meet them. -/

namespace Sys2Proof.Tests

open Sys2Proof Sys2Proof.Machine

/-! ### Decoding: a word of every instruction, written out from its encoding in 30_encoding.md R63 -/

theorem test_decode_cls : decodeWord 0b0000000011100000 = .instr .cls := by decide
theorem test_decode_ret : decodeWord 0b0000000011101110 = .instr .ret := by decide
theorem test_decode_jp : decodeWord 0b0001101010111100 = .instr (.jp 0xABC) := by decide
theorem test_decode_call : decodeWord 0b0010001000010000 = .instr (.call 0x210) := by decide
theorem test_decode_seImm : decodeWord 0b0011010100011000 = .instr (.seImm 5 0x18) := by decide
theorem test_decode_sneImm : decodeWord 0b0100001100010001 = .instr (.sneImm 3 0x11) := by decide
theorem test_decode_seReg : decodeWord 0b0101000100100000 = .instr (.seReg 1 2) := by decide
theorem test_decode_ldImm : decodeWord 0b0110101000000111 = .instr (.ldImm 10 0x07) := by decide
theorem test_decode_addImm : decodeWord 0b0111000000001010 = .instr (.addImm 0 0x0A) := by decide
theorem test_decode_ldReg : decodeWord 0b1000000100100000 = .instr (.ldReg 1 2) := by decide
theorem test_decode_orReg : decodeWord 0b1000000100100001 = .instr (.orReg 1 2) := by decide
theorem test_decode_andReg : decodeWord 0b1000000100100010 = .instr (.andReg 1 2) := by decide
theorem test_decode_xorReg : decodeWord 0b1000010101010011 = .instr (.xorReg 5 5) := by decide
theorem test_decode_addReg : decodeWord 0b1000101010110100 = .instr (.addReg 10 11) := by decide
theorem test_decode_sub : decodeWord 0b1000000100100101 = .instr (.sub 1 2) := by decide
theorem test_decode_shr : decodeWord 0b1000111100000110 = .instr (.shr 15 0) := by decide
theorem test_decode_subn : decodeWord 0b1000000100100111 = .instr (.subn 1 2) := by decide
theorem test_decode_shl : decodeWord 0b1000000100101110 = .instr (.shl 1 2) := by decide
theorem test_decode_sneReg : decodeWord 0b1001000100100000 = .instr (.sneReg 1 2) := by decide
theorem test_decode_ldI : decodeWord 0b1010001100000000 = .instr (.ldI 0x300) := by decide
theorem test_decode_jpV0 : decodeWord 0b1011111100000000 = .instr (.jpV0 0xF00) := by decide
theorem test_decode_rnd : decodeWord 0b1100001100001111 = .instr (.rnd 3 0x0F) := by decide
theorem test_decode_drw : decodeWord 0b1101000100100101 = .instr (.drw 1 2 5) := by decide
theorem test_decode_skp : decodeWord 0b1110000110011110 = .instr (.skp 1) := by decide
theorem test_decode_sknp : decodeWord 0b1110000110100001 = .instr (.sknp 1) := by decide
theorem test_decode_ldVxDt : decodeWord 0b1111001100000111 = .instr (.ldVxDt 3) := by decide
theorem test_decode_ldVxK : decodeWord 0b1111000100001010 = .instr (.ldVxK 1) := by decide
theorem test_decode_ldDtVx : decodeWord 0b1111000100010101 = .instr (.ldDtVx 1) := by decide
theorem test_decode_ldStVx : decodeWord 0b1111000100011000 = .instr (.ldStVx 1) := by decide
theorem test_decode_addI : decodeWord 0b1111001000011110 = .instr (.addI 2) := by decide
theorem test_decode_ldF : decodeWord 0b1111010000101001 = .instr (.ldF 4) := by decide
theorem test_decode_ldB : decodeWord 0b1111000000110011 = .instr (.ldB 0) := by decide
theorem test_decode_stRegs : decodeWord 0b1111001001010101 = .instr (.stRegs 2) := by decide
theorem test_decode_ldRegs : decodeWord 0b1111000001100101 = .instr (.ldRegs 0) := by decide

/-- Table E: the words it lists as unknown. -/
theorem test_decode_unknown :
    decodeWord 0x0000 = .unknown .class0 ∧ decodeWord 0x01E0 = .unknown .class0 ∧ decodeWord 0x0123 = .unknown .class0 ∧
    decodeWord 0x5121 = .unknown .class5 ∧ decodeWord 0x8AB8 = .unknown .class8 ∧ decodeWord 0x8ABF = .unknown .class8 ∧
    decodeWord 0x9AB1 = .unknown .class9 ∧ decodeWord 0xE19F = .unknown .classE ∧ decodeWord 0xF1FF = .unknown .classF ∧
    decodeWord 0xFFFF = .unknown .classF := by decide

/-- Table E: the fields of `0x8AB4`. -/
theorem test_fields : fields 0x8AB4 = ⟨0x8, 10, 11, 0x4, 0xB4, 0xAB4⟩ := by decide

/-- R57, R47: two bytes are an instruction, the high byte first; one byte is none; the rest is handed back. -/
theorem test_decode_bytes :
    decodeBytes [0x60, 0x05, 0x70] = (.instr (.ldImm 0 0x05), [0x70]) ∧ decodeBytes [0x60] = (.truncated, [0x60]) ∧
    encodeBytes (.ldImm 0 0x05) = [0x60, 0x05] := by decide

/-- The host's entry: a table row's word, and an unknown word. -/
theorem test_decode_table_word :
    decodeTableWord 16 0x1ABC = some (.jp 0xABC) ∧ decodeTableWord 16 0x0000 = none ∧
    decodeTableWord 16 0x700E0 = some .cls := by decide

/-- The notation of R70: `D125`, `8126` (the ignored Y is not printed), `F255`. -/
theorem test_notation :
    (Instr.drw 1 2 5).text = "DRW V1, V2, 0x5" ∧ (Instr.shr 1 2).text = "SHR V1" ∧
    (Instr.stRegs 2).text = "LD [I], V2" ∧ (Instr.ldImm 10 0x07).text = "LD VA, 0x07" := by decide

/-- R72: the one check of WellFormed refuses a shift with a Y that is not 0, and accepts Y = 0. -/
theorem test_canonical_refuses :
    (Instr.shr 1 2).canonical = false ∧ (Instr.shl 1 2).canonical = false ∧ (Instr.shr 1 0).canonical = true ∧
    (Instr.shl 15 0).canonical = true := by decide

/-! ### Small states -/

/-- After reset, with a PC and some registers. -/
def start (pc : Word) (vs : List (Reg × Byte)) : State :=
  { State.reset with pc := pc, v := vs.foldl (fun v r => v.set r.1.val r.2) State.reset.v }

/-- The instruction answers a next state, and that state passes. -/
def after (i : Instr) (s : State) (p : State → Bool) : Bool :=
  match exec i s with
  | .next t    => p t
  | .fault _   => false
  | .refused _ => false

/-- The step answers a next state, and that state passes. -/
def stepped (s : State) (p : State → Bool) : Bool :=
  match step s with
  | .next t    => p t
  | .fault _   => false
  | .refused _ => false

/-- Lit pixels as (x, y). -/
def lit (s : State) (ps : List (Fin 64 × Fin 32)) : Bool := ps.all fun p => Framebuffer.pixel s.fb p.1 p.2

/-- Halted with this code and information. -/
def haltedWith (code : BitVec 3) (info : BitVec 17) (s : State) : Bool :=
  s.haltedOut && s.faultOut == code && s.faultInfo == info

/-- A row 0 lit at columns 0 to 3 (from D5v). -/
def row0Lit : Framebuffer := State.reset.fb.set 0 0xF

/-! ### Control flow: table C (PC in the handler is the instruction's address plus 2, R73) -/

theorem test_jp : after (.jp 0x204) (start 0x20C []) (fun t => t.pc == 0x204) = true := by decide
theorem test_jp_odd_target : after (.jp 0x203) (start 0x202 []) (fun t => t.pc == 0x203) = true := by decide
theorem test_call_last_slot :
    after (.call 0x300) { start 0x252 [] with sp := 15 }
      (fun t => t.stack[15] == 0x252 && t.sp == 16 && t.pc == 0x300) = true := by decide
theorem test_call_overflow :
    after (.call 0x300) { start 0x252 [] with sp := 16 } (fun t => haltedWith 2 0 t && t.sp == 16 && t.pc == 0x252) = true := by
  decide
/-- notes/assumptions/15.md: by R67 and R77 a CALL fetched from the odd `0xFFD` pushes `0xFFF` (by hand from the rules). -/
theorem test_call_at_0xFFD :
    stepped { start 0xFFD [] with mem := [(0xFFD, 0x23)], events := [.instrTick 0 0] }
      (fun t => t.stack[0] == 0xFFF && t.sp == 1 && t.pc == 0x300) = true := by decide
theorem test_ret :
    after .ret { start 0x214 [] with sp := 1, stack := State.reset.stack.set 0 0x206 }
      (fun t => t.sp == 0 && t.pc == 0x206 && t.stack[0] == 0x206) = true := by decide
theorem test_ret_underflow : after .ret (start 0x202 []) (fun t => haltedWith 3 0 t && t.pc == 0x202) = true := by decide
theorem test_seImm_taken : after (.seImm 0 0) (start 0x20A []) (fun t => t.pc == 0x20C) = true := by decide
theorem test_seImm_end_of_memory :
    after (.seImm 0 0) (start 0xFFE []) (fun t => haltedWith 5 0xFFE t && t.pc == 0xFFE) = true := by decide
theorem test_sneImm_taken : after (.sneImm 3 0x11) (start 0x302 [(3, 0x10)]) (fun t => t.pc == 0x304) = true := by decide
theorem test_sneImm_not_taken : after (.sneImm 3 0x10) (start 0x302 [(3, 0x10)]) (fun t => t.pc == 0x302) = true := by decide
/-- S11: `5120` compares V1 with V2 and not with the immediate byte `0x20`. -/
theorem test_seReg_not_immediate :
    after (.seReg 1 2) (start 0x202 [(1, 0x20), (2, 0x07)]) (fun t => t.pc == 0x202) = true := by decide
theorem test_seReg_taken : after (.seReg 1 2) (start 0x202 [(1, 7), (2, 7)]) (fun t => t.pc == 0x204) = true := by decide
theorem test_sneReg_taken : after (.sneReg 1 2) (start 0x202 [(1, 7), (2, 8)]) (fun t => t.pc == 0x204) = true := by decide
theorem test_sneReg_same : after (.sneReg 4 4) (start 0x202 [(4, 9)]) (fun t => t.pc == 0x202) = true := by decide
theorem test_jpV0_highest : after (.jpV0 0xF00) (start 0x202 [(0, 0xFF)]) (fun t => t.pc == 0xFFF) = true := by decide
theorem test_jpV0_out_of_bounds :
    after (.jpV0 0xFFF) (start 0x204 [(0, 0xFF)]) (fun t => haltedWith 4 0x10FE t && t.pc == 0x204) = true := by decide

/-! ### Load and arithmetic: tables A0 to A8 -/

theorem test_ldImm : after (.ldImm 10 0x07) (start 0x202 []) (fun t => t.getV 10 == 0x07) = true := by decide
theorem test_addImm_wraps_without_flag :
    after (.addImm 0 0x20) (start 0x202 [(0, 0xF0), (VF, 1)]) (fun t => t.getV 0 == 0x10 && t.getV VF == 1) = true := by decide
theorem test_ldReg :
    after (.ldReg 1 2) (start 0x202 [(2, 0x3C)]) (fun t => t.getV 1 == 0x3C && t.getV 2 == 0x3C) = true := by decide
theorem test_orReg :
    after (.orReg 1 2) (start 0x202 [(1, 0xF0), (2, 0x3C), (VF, 1)]) (fun t => t.getV 1 == 0xFC && t.getV VF == 1) = true := by
  decide
theorem test_andReg :
    after (.andReg 1 2) (start 0x202 [(1, 0xF0), (2, 0x3C), (VF, 1)]) (fun t => t.getV 1 == 0x30 && t.getV VF == 1) = true := by
  decide
theorem test_xorReg :
    after (.xorReg 1 2) (start 0x202 [(1, 0xF0), (2, 0x3C), (VF, 1)]) (fun t => t.getV 1 == 0xCC && t.getV VF == 1) = true := by
  decide
theorem test_addReg_carry :
    after (.addReg 1 2) (start 0x202 [(1, 0xC8), (2, 0x64)]) (fun t => t.getV 1 == 0x2C && t.getV VF == 1) = true := by decide
/-- A7: the carry of `0x01 + 0xFF` replaces the sum in VF. -/
theorem test_addReg_into_vf :
    after (.addReg VF 2) (start 0x202 [(VF, 0x01), (2, 0xFF)]) (fun t => t.getV VF == 1) = true := by decide
theorem test_sub_borrow :
    after (.sub 1 2) (start 0x202 [(1, 0x0A), (2, 0x0C)]) (fun t => t.getV 1 == 0xFE && t.getV VF == 0) = true := by decide
theorem test_sub_equal :
    after (.sub 1 2) (start 0x202 [(1, 5), (2, 5)]) (fun t => t.getV 1 == 0 && t.getV VF == 1) = true := by decide
theorem test_subn_borrow :
    after (.subn 1 2) (start 0x202 [(1, 0x80), (2, 0x7F)]) (fun t => t.getV 1 == 0xFF && t.getV VF == 0) = true := by decide
theorem test_subn_no_borrow :
    after (.subn 1 2) (start 0x202 [(1, 0x00), (2, 0xFF)]) (fun t => t.getV 1 == 0xFF && t.getV VF == 1) = true := by decide
/-- S11: the flag is the register's bit 0, not the word's. -/
theorem test_shr_flag_from_register :
    after (.shr 1 2) (start 0x202 [(1, 0x05)]) (fun t => t.getV 1 == 0x02 && t.getV VF == 1 && t.getV 2 == 0) = true := by
  decide
theorem test_shr_of_vf : after (.shr VF 0) (start 0x202 [(VF, 0x03)]) (fun t => t.getV VF == 1) = true := by decide
theorem test_shl_flag_from_register :
    after (.shl 1 2) (start 0x202 [(1, 0x80)]) (fun t => t.getV 1 == 0x00 && t.getV VF == 1) = true := by decide
theorem test_shl_no_flag :
    after (.shl 1 2) (start 0x202 [(1, 0x55)]) (fun t => t.getV 1 == 0xAA && t.getV VF == 0) = true := by decide
theorem test_rnd :
    after (.rnd 3 0xF0) { start 0x202 [] with rnd := 0xA7 } (fun t => t.getV 3 == 0xA0) = true := by decide

/-! ### Index register and memory: table M -/

theorem test_ldI : after (.ldI 0x300) (start 0x202 []) (fun t => t.i == 0x300) = true := by decide
theorem test_addI_wraps :
    after (.addI 2) { start 0x202 [(2, 1)] with i := 0xFFFF } (fun t => t.i == 0) = true := by decide
theorem test_addI_past_memory :
    after (.addI 2) { start 0x202 [(2, 1)] with i := 0x0FFF } (fun t => t.i == 0x1000 && t.getV VF == 0) = true := by decide
theorem test_ldF : after (.ldF 4) (start 0x202 [(4, 0x0F)]) (fun t => t.i == 0x09B) = true := by decide
theorem test_ldF_no_mask : after (.ldF 4) (start 0x202 [(4, 0xFF)]) (fun t => t.i == 0x54B) = true := by decide
theorem test_ldB_highest :
    after (.ldB 0) { start 0x202 [(0, 234)] with i := 0xFFD }
      (fun t => Memory.readBytes t.mem 0xFFD 3 == [2, 3, 4]) = true := by decide
theorem test_ldB_out_of_bounds :
    after (.ldB 0) { start 0x204 [(0, 255)] with i := 0xFFE }
      (fun t => haltedWith 4 0x1000 t && t.pc == 0x204 && t.mem == []) = true := by decide
theorem test_stRegs :
    after (.stRegs 2) { start 0x202 [(0, 1), (1, 2), (2, 3), (3, 4)] with i := 0x400 }
      (fun t => Memory.readBytes t.mem 0x400 4 == [1, 2, 3, 0] && t.i == 0x400) = true := by decide
theorem test_stRegs_out_of_bounds :
    after (.stRegs 15) { start 0x204 [(0, 1)] with i := 0xFF1 } (fun t => haltedWith 4 0x1000 t && t.mem == []) = true := by
  decide
theorem test_ldRegs :
    after (.ldRegs 2) { start 0x202 [(3, 9)] with i := 0x400, mem := [(0x400, 0x12), (0x401, 0x16), (0x402, 0x33), (0x403, 7)] }
      (fun t => t.getV 0 == 0x12 && t.getV 1 == 0x16 && t.getV 2 == 0x33 && t.getV 3 == 9) = true := by decide
theorem test_ldRegs_out_of_bounds :
    after (.ldRegs 15) { start 0x204 [] with i := 0xFFFF } (fun t => haltedWith 4 0x1000E t) = true := by decide

/-! ### Display: table D -/

theorem test_cls : after .cls { start 0x202 [] with fb := row0Lit } (fun t => t.fb == State.reset.fb) = true := by decide
/-- D4v: the sprite wraps at both edges. -/
theorem test_drw_wraps :
    after (.drw 0 1 2) { start 0x202 [(0, 0xFF), (1, 0xFF)] with i := 0x300, mem := [(0x300, 0xC0), (0x301, 0xC0)] }
      (fun t => lit t [(63, 31), (0, 31), (63, 0), (0, 0)] && t.fb[0] == 0x8000000000000001 && t.getV VF == 0) = true := by
  decide
/-- D6v: XOR over lit pixels, with a collision. -/
theorem test_drw_collision :
    after (.drw 0 1 1) { start 0x202 [(0, 2)] with i := 0x300, mem := [(0x300, 0xFF)], fb := row0Lit }
      (fun t => t.fb[0] == 0x3F3 && t.getV VF == 1) = true := by decide

/-! ### Keypad and timers: table K -/

theorem test_skp_down :
    after (.skp 1) { start 0x202 [(1, 5)] with key := 0x0020 } (fun t => t.pc == 0x204) = true := by decide
theorem test_skp_index_out_of_range :
    after (.skp 0) { start 0x204 [(0, 0x10)] with key := 0xFFFF } (fun t => haltedWith 6 0x10 t && t.pc == 0x204) = true := by
  decide
theorem test_sknp_down :
    after (.sknp 1) { start 0x202 [(1, 5)] with key := 0x0020 } (fun t => t.pc == 0x202) = true := by decide
theorem test_sknp_up :
    after (.sknp 1) { start 0x202 [(1, 5)] with key := 0xFFDF } (fun t => t.pc == 0x204) = true := by decide
theorem test_ldVxK_enters_wait :
    after (.ldVxK 1) { start 0x202 [(1, 9)] with key := 0x0008 }
      (fun t => t.run == .waitingForKey 1 && t.getV 1 == 9 && t.pc == 0x202) = true := by decide
theorem test_ldVxDt :
    after (.ldVxDt 3) { start 0x202 [] with dt := 0x2A } (fun t => t.getV 3 == 0x2A && t.dt == 0x2A) = true := by decide
theorem test_ldDtVx : after (.ldDtVx 1) (start 0x202 [(1, 0x3C)]) (fun t => t.dt == 0x3C) = true := by decide
theorem test_ldStVx_raises_tone :
    after (.ldStVx 1) (start 0x202 [(1, 0x03)]) (fun t => t.st == 3 && t.tone) = true := by decide
theorem test_ldStVx_lowers_tone :
    after (.ldStVx 1) { start 0x202 [] with st := 5 } (fun t => t.st == 0 && !t.tone) = true := by decide
/-- K9: the lowest of keys 5 and 8 ends the wait. -/
theorem test_wait_lowest_key :
    stepped { start 0x202 [] with run := .waitingForKey 1, events := [.instrTick 0x0120 0] }
      (fun t => t.getV 1 == 5 && t.run == .running && t.pc == 0x202) = true := by decide
/-- K7: no key, no change. -/
theorem test_wait_goes_on :
    stepped { start 0x202 [] with run := .waitingForKey 1, events := [.instrTick 0 0] }
      (fun t => t.run == .waitingForKey 1 && t.getV 1 == 0) = true := by decide
/-- K17 and K16: a timer tick in the wait; the floor at 0. -/
theorem test_timer_tick_in_wait :
    stepped { start 0x202 [] with run := .waitingForKey 2, dt := 2, events := [.timerTick] }
      (fun t => t.dt == 1 && t.st == 0 && t.run == .waitingForKey 2) = true := by decide
/-- K18: nothing happens in Halted. -/
theorem test_timer_tick_in_halted :
    stepped { start 0x202 [] with run := .halted, dt := 2, st := 2, events := [.timerTick] }
      (fun t => t.dt == 2 && t.st == 2) = true := by decide

/-! ### Fetch, unknown words, reset, boot -/

/-- P7 tick 1 through the fetch: the word at `0x200` is `6012`, high byte at the lower address. -/
theorem test_fetch_big_endian :
    stepped { start 0x200 [] with mem := [(0x200, 0x60), (0x201, 0x12)], events := [.instrTick 0 0] }
      (fun t => t.getV 0 == 0x12 && t.ir == 0x6012 && t.pc == 0x202) = true := by decide
/-- P6 (b): an unknown word advances PC and raises nothing. -/
theorem test_unknown_word :
    stepped { start 0x200 [] with mem := [(0x200, 0x01), (0x201, 0x23)], events := [.instrTick 0 0] }
      (fun t => t.pc == 0x202 && t.ir == 0x0123 && t.run == .running && t.v == State.reset.v) = true := by decide
/-- P6 (d), the last tick: PC = `0xFFE`, nothing is fetched. -/
theorem test_end_of_memory :
    stepped { start 0xFFE [] with ir := 0x1234, events := [.instrTick 0 0] }
      (fun t => haltedWith 5 0xFFE t && t.pc == 0xFFE && t.ir == 0x1234) = true := by decide
/-- R1v: a Reset leaves Halted, clears the registers and keeps memory. -/
theorem test_reset_event :
    stepped { start 0x202 [(0, 9)] with
        run := .halted, fault := .stackUnderflow, dt := 4, fb := row0Lit, mem := [(0x300, 7)], events := [.reset] }
      (fun t => t.pc == 0x200 && t.v == State.reset.v && t.dt == 0 && t.fb == State.reset.fb && t.run == .running &&
        t.faultOut == 0 && t.readByte 0x300 == 7) = true := by decide
/-- R42: glyph 7, which D11v draws. -/
theorem test_font_glyph_seven : Memory.readBytes [] 0x073 5 = [0xF0, 0x10, 0x20, 0x40, 0x40] := by decide
/-- R45 with the boot contents: storing what an unlisted address reads as leaves nothing listed. -/
theorem test_memory_canonical :
    Memory.write (Memory.write [] 0x300 7) 0x300 0 = [] ∧ Memory.write [] 0x050 0xF0 = [] ∧
    Memory.wf (Memory.write (Memory.write [] 0x300 7) 0x050 0) = true := by decide
/-- P1's image lies at `0x200`, the rest is zero. -/
theorem test_cold_boot :
    coldBoot .fault [0x60, 0x05, 0x70, 0x0A] =
      .started { State.reset with mem := [(0x200, 0x60), (0x201, 0x05), (0x202, 0x70), (0x203, 0x0A)] } := by decide
/-- The host's entry: after reset with the word of `6A07` placed, the next step runs it, whatever the free inputs are. -/
theorem test_with_fetch_word :
    stepped (State.reset.withFetchWord 16 0x6A07) (fun t => t.getV 10 == 0x07 && t.ir == 0x6A07 && t.pc == 0x202) = true := by
  decide

/-- Why `Obligations.DrawTwiceRestoresFramebuffer` differs from the closing words of 43_display.md R113
(notes/assumptions/9.md): by R108, a sprite `0x80` drawn at (0, 0) over a lit pixel turns it off (collision), so the second
draw meets no lit pixel and reports none, although the sprite has a 1 bit. -/
theorem test_second_draw_without_collision :
    after (.drw 0 1 1) { start 0x202 [] with i := 0x300, mem := [(0x300, 0x80)], fb := State.reset.fb.set 0 1 }
      (fun t => t.getV VF == 1 && after (.drw 0 1 1) t (fun u => u.getV VF == 0 && u.fb[0] == 1)) = true := by decide

/-! ### Witnesses: states and operands that meet the hypotheses of the obligations, clause by clause, at the bounds -/

/-- The last address an instruction can be fetched from (`0xFFD`), `6A07` there, an instruction tick next. -/
def lastFetch : State :=
  { State.reset with pc := 0xFFD, mem := [(0xFFD, 0x6A), (0xFFE, 0x07)], events := [.instrTick 0xFFFF 0xFF] }

theorem wit_EncodeOfDecodeIsIdentity : decodeWord 0x812E = .instr (.shl 1 2) := by decide

theorem wit_DecodeSelectsByMaskAndMatch :
    (Instr.cls.row ∈ opcodeRows ∧ (0x00E0 : Word) &&& Instr.cls.row.mask = Instr.cls.row.pattern) ∧
    ((⟨0xF000, 0xD000⟩ : Row) ∈ opcodeRows ∧ (0xDFFF : Word) &&& 0xF000 = 0xD000) ∧
    ((⟨0xF00F, 0x800E⟩ : Row) ∈ opcodeRows ∧ (0x8FFE : Word) &&& 0xF00F = 0x800E) ∧
    ((⟨0xF0FF, 0xF065⟩ : Row) ∈ opcodeRows ∧ (0xFF65 : Word) &&& 0xF0FF = 0xF065) := by decide

theorem wit_StepRunsDecodedInstruction :
    lastFetch.run = .running ∧ lastFetch.pc.toNat + 2 ≤ 0xFFF ∧
    decodeWord (lastFetch.readByte lastFetch.pc.toNat ++ lastFetch.readByte (lastFetch.pc.toNat + 1)) = .instr (.ldImm 10 0x07) ∧
    lastFetch.events = [.instrTick 0xFFFF 0xFF] ∧ { lastFetch with events := [] }.events = [] := by decide

/-- The word `0x0000` at the address where fetching begins and at the last address. -/
def noOp (pc : Word) : State := { start pc [] with events := [.instrTick 0xFFFF 0xFF] }

theorem wit_UnknownWordOnlyAdvancesPc : ∀ pc : Word, pc = 0x200 ∨ pc = 0xFFD →
    (noOp pc).run = .running ∧ (noOp pc).pc.toNat + 2 ≤ 0xFFF ∧ (noOp pc).events = .instrTick 0xFFFF 0xFF :: [] ∧
    decodeWord ((noOp pc).readByte (noOp pc).pc.toNat ++ (noOp pc).readByte ((noOp pc).pc.toNat + 1)) = .unknown .class0 := by
  rintro _ (rfl | rfl) <;> decide

theorem wit_FetchPastEndOfMemoryHalts :
    { lastFetch with pc := 0xFFE }.run = .running ∧ { lastFetch with pc := 0xFFE }.pc.toNat + 2 > 0xFFF ∧
    { lastFetch with pc := 0xFFE }.events = [.instrTick 0xFFFF 0xFF] := by decide

/-- A state of each run state with the given events to come. -/
def pending (run : Run) (es : List Event) : State := { State.reset with run := run, events := es }

theorem wit_HaltedIgnoresTicks :
    ((pending .halted [.timerTick]).run = .halted ∧ (pending .halted [.timerTick]).events = .timerTick :: [] ∧
      Event.timerTick ≠ .reset) ∧
    ((pending .halted [.instrTick 0 0]).run = .halted ∧
      (pending .halted [.instrTick 0 0]).events = .instrTick 0 0 :: [] ∧ Event.instrTick 0 0 ≠ .reset) := by decide

theorem wit_ResetEventRestoresRegisters : (pending .halted [.reset]).events = .reset :: [] := by decide

theorem wit_TimerTickCountsBothTimersDown :
    ((pending (.waitingForKey 2) [.timerTick]).run ≠ .halted ∧
      (pending (.waitingForKey 2) [.timerTick]).events = .timerTick :: []) ∧
    ((pending .running [.timerTick]).run ≠ .halted ∧ (pending .running [.timerTick]).events = .timerTick :: []) := by decide

theorem wit_WaitEndsWithLowestPressedKey : ∀ k : Keys, k = 0 ∨ k = 1 ∨ k = 0x8000 →
    (pending (.waitingForKey 15) [.instrTick k 0]).run = .waitingForKey 15 ∧
    (pending (.waitingForKey 15) [.instrTick k 0]).events = .instrTick k 0 :: [] ∧ (k = 0 ∨ k ≠ 0) := by
  rintro _ (rfl | rfl | rfl) <;> decide

/-- P5 events 5 to 8: idle ticks of both kinds, then keys 5 and 8 down; and no idle tick at all. -/
theorem wit_WaitLastsThroughIdleTicks :
    (let idle : List Event := [.instrTick 0 0, .timerTick, .instrTick 0 7]
     (pending (.waitingForKey 2) (idle ++ [.instrTick 0x0120 0])).run = .waitingForKey 2 ∧
     (pending (.waitingForKey 2) (idle ++ [.instrTick 0x0120 0])).events = idle ++ .instrTick 0x0120 0 :: [] ∧
     (0x0120 : Keys) ≠ 0 ∧ ∀ e ∈ idle, e = .timerTick ∨ ∃ b, e = .instrTick 0 b) ∧
    (pending (.waitingForKey 2) [.instrTick 0x8000 0]).events = [] ++ .instrTick 0x8000 0 :: [] := by
  refine ⟨⟨by decide, by decide, by decide, ?_⟩, by decide⟩
  intro e he
  simp only [List.mem_cons, List.not_mem_nil, or_false] at he
  rcases he with rfl | rfl | rfl
  exacts [.inr ⟨0, rfl⟩, .inl rfl, .inr ⟨7, rfl⟩]

/-- All three inputs, the two of R128, a reset with one tick, and none, each in front of another event. -/
theorem wit_SimultaneousEventsAreOrdered :
    (pending .running [.reset, .instrTick 1 2, .timerTick, .reset]).events = (Pins.mk true true true 1 2).events ++ [.reset] ∧
    (pending .running [.instrTick 1 2, .timerTick, .reset]).events = (Pins.mk false true true 1 2).events ++ [.reset] ∧
    (pending .halted [.reset, .timerTick, .reset]).events = (Pins.mk true false true 1 2).events ++ [.reset] ∧
    (pending .halted [.reset]).events = (Pins.mk false false false 1 2).events ++ [.reset] := by decide

theorem wit_ColdBootLoadsImageVerbatim :
    (List.replicate 3584 (1 : Byte)).length ≤ 3584 ∧ (3583 < (List.replicate 3584 (1 : Byte)).length) ∧
    ([] : List Byte).length ≤ 3584 ∧ (List.replicate 3585 (1 : Byte)).length > 3584 := by
  simp only [List.length_replicate]
  decide

theorem wit_CallPushesReturnAddress :
    { State.reset with sp := 15 }.sp.val < 16 ∧ { State.reset with sp := 0 }.sp.val < 16 ∧
    { State.reset with sp := 16 }.sp.val = 16 := by decide

theorem wit_ReturnPopsIntoPc :
    0 < { State.reset with sp := 1 }.sp.val ∧ 0 < { State.reset with sp := 16 }.sp.val ∧ State.reset.sp.val = 0 := by decide

theorem wit_ReturnAfterCallRestoresPc :
    { State.reset with sp := 15 }.sp.val < 16 ∧
    after (.call 0x300) { State.reset with sp := 15 } (fun t => t.sp == 16) = true := by decide

/-- One state per clause: the condition holds below and past the bound, and does not hold. -/
theorem wit_SkipsAdvanceExactlyOneInstruction :
    ((start 0xFFD [(0, 5)]).getV 0 = 5 ∧ (start 0xFFD [(0, 5)]).pc.toNat + 2 ≤ 0xFFF) ∧
    ((start 0xFFE [(0, 5)]).getV 0 = 5 ∧ (start 0xFFE [(0, 5)]).pc.toNat + 2 > 0xFFF) ∧
    (start 0xFFE [(0, 5)]).getV 0 ≠ 6 ∧ (start 0xFFD [(0, 5)]).getV 0 ≠ (start 0xFFD [(0, 5)]).getV 1 ∧
    (start 0xFFD [(0, 5), (1, 5)]).getV 0 = (start 0xFFD [(0, 5), (1, 5)]).getV 1 := by decide

theorem wit_IndexedJumpIsChecked :
    (0xF00 : Addr12).toNat + ((start 0x202 [(0, 0xFF)]).getV V0).toNat ≤ 0xFFF ∧
    (0xF01 : Addr12).toNat + ((start 0x202 [(0, 0xFF)]).getV V0).toNat > 0xFFF := by decide

/-- `AddRegisterSetsCarry`, `SubtractionsSetNoBorrow`, `ShiftsPutBitShiftedOutIntoVf`: the clause for VX. -/
theorem wit_flag_instructions_into_other_registers : (14 : Reg) ≠ VF ∧ (0 : Reg) ≠ VF := by decide

/-- `BcdStoresThreeDigits`: I = `0xFFD` and I = `0xFFE`. -/
theorem wit_BcdStoresThreeDigits :
    Memory.wf State.reset.mem = true ∧ { State.reset with i := 0xFFD }.effAddr 2 ≤ 0xFFF ∧
    { State.reset with i := 0xFFE }.effAddr 2 > 0xFFF := by decide

/-- `StoreRegistersWritesV0ThroughVx`, `LoadRegistersReadsV0ThroughVx`, `StoreThenLoadRestoresRegisters`: X = 15 at `0xFF0`
and `0xFF1`, X = 0 at `0xFFF` and `0x1000`, a register at most and one above X. -/
theorem wit_register_blocks :
    Memory.wf State.reset.mem = true ∧ { State.reset with i := 0xFF0 }.effAddr (15 : Reg).val ≤ 0xFFF ∧
    { State.reset with i := 0xFF1 }.effAddr (15 : Reg).val > 0xFFF ∧ { State.reset with i := 0xFFF }.effAddr (0 : Reg).val ≤ 0xFFF ∧
    { State.reset with i := 0x1000 }.effAddr (0 : Reg).val > 0xFFF ∧ (15 : Reg).val ≤ (15 : Reg).val ∧
    (15 : Reg).val > (14 : Reg).val := by decide

/-- P7 at tick 11, moved so that the second word is the last that can be fetched: `F155` at `0xFFB`, I = `0xFFD`. -/
def selfModifying : State :=
  { start 0xFFB [(0, 0x12), (1, 0x16)] with
    i := 0xFFD, mem := [(0xFFB, 0xF1), (0xFFC, 0x55)], events := [.instrTick 0 0, .instrTick 0 0] }

theorem wit_StoredWordIsFetchedNext :
    Memory.wf selfModifying.mem = true ∧ selfModifying.run = .running ∧
    selfModifying.events = .instrTick 0 0 :: .instrTick 0 0 :: [] ∧
    decodeWord (selfModifying.readByte selfModifying.pc.toNat ++ selfModifying.readByte (selfModifying.pc.toNat + 1)) =
      .instr (.stRegs 1) ∧
    1 ≤ (1 : Reg).val ∧ selfModifying.i.toNat = selfModifying.pc.toNat + 2 ∧ selfModifying.pc.toNat + 4 ≤ 0xFFF ∧
    selfModifying.effAddr (1 : Reg).val ≤ 0xFFF ∧
    decodeWord (selfModifying.getV 0 ++ selfModifying.getV 1) = .instr (.jp 0x216) := by decide

/-- `DrawXorsSpriteAndReportsCollision`, `DrawTwiceRestoresFramebuffer`: no row, one row at `0xFFF`, 15 rows up to `0xFFF`,
and one byte too many. -/
theorem wit_draws :
    (0 : Nibble) = 0 ∧ { State.reset with i := 0xFFF }.effAddr ((1 : Nibble).toNat - 1) ≤ 0xFFF ∧
    { State.reset with i := 0xFF1 }.effAddr ((15 : Nibble).toNat - 1) ≤ 0xFFF ∧
    ((2 : Nibble) ≠ 0 ∧ { State.reset with i := 0xFFF }.effAddr ((2 : Nibble).toNat - 1) > 0xFFF) := by decide

/-- The three ways a keypad skip goes, at indices 15 and 16, with the key down and up, below and past the bound. -/
theorem wit_KeypadSkipsTestSampledLevel :
    ((start 0xFFD [(1, 15)]).getV 1).toNat ≤ 15 ∧ { start 0xFFD [(1, 16)] with keyIndexMode := .mask4 }.keyIndexMode = .mask4 ∧
    (((start 0xFFD [(1, 16)]).getV 1).toNat > 15 ∧ (start 0xFFD [(1, 16)]).keyIndexMode = .fault) ∧
    (0x8000 : Keys).getLsbD (((start 0xFFD [(1, 15)]).getV 1).toNat % 16) = true ∧
    (0x8000 : Keys).getLsbD (((start 0xFFD [(1, 16)]).getV 1).toNat % 16) = false ∧
    (start 0xFFD [(1, 15)]).pc.toNat + 2 ≤ 0xFFF ∧ (start 0xFFE [(1, 15)]).pc.toNat + 2 > 0xFFF := by decide

/-- A state at the bounds of the invariant: the highest PC and return address, memory listed at both ends. -/
def edge : State :=
  { State.reset with
    pc := 0xFFF, sp := 16, stack := Vector.replicate 16 0xFFF, mem := [(0x000, 1), (0xFFF, 1)], run := .halted,
    fault := .endOfMemory, faultInfo := 0xFFF, events := [.reset] }

theorem wit_EveryStepKeepsInvariant : edge.Inv ∧ ∃ t, step edge = .next t := by
  refine ⟨⟨by decide, ⟨by decide, by decide⟩, fun h => absurd rfl h, fun _ => by decide⟩, _, rfl⟩

theorem wit_VRegistersChangeOnlyAsDestinations :
    after (.addReg 1 2) (start 0x202 [(1, 1), (2, 0xFF)])
      (fun t => t.getV 1 != (start 0x202 [(1, 1), (2, 0xFF)]).getV 1 && t.getV VF != (start 0x202 [(1, 1), (2, 0xFF)]).getV VF)
      = true := by decide

/-- One instruction for each clause whose component it changes. -/
theorem wit_SpecialStateHasOnlyItsWriters :
    after (.ldI 0x300) State.reset (fun t => t.i != State.reset.i) = true ∧
    after (.jp 0x300) State.reset (fun t => t.pc != State.reset.pc) = true ∧
    after (.call 0x300) State.reset (fun t => t.sp != State.reset.sp && t.stack != State.reset.stack) = true ∧
    after (.stRegs 0) (start 0x202 [(0, 1)]) (fun t => t.mem != State.reset.mem) = true ∧
    after (.ldDtVx 0) (start 0x202 [(0, 1)]) (fun t => t.dt != State.reset.dt) = true ∧
    after (.ldStVx 0) (start 0x202 [(0, 1)]) (fun t => t.st != State.reset.st) = true ∧
    after .cls { State.reset with fb := row0Lit } (fun t => t.fb != row0Lit) = true := by decide

/-- One instruction for each cause. -/
theorem wit_FatalConditionsArePrecise :
    State.reset.run ≠ .halted ∧
    after (.call 0x300) { State.reset with sp := 16 } (fun t => t.run == .halted && t.fault == .stackOverflow) = true ∧
    after .ret State.reset (fun t => t.run == .halted && t.fault == .stackUnderflow) = true ∧
    after (.ldRegs 0) { State.reset with i := 0x1000 } (fun t => t.run == .halted && t.fault == .memoryOutOfBounds) = true ∧
    after (.seImm 0 0) (start 0xFFE []) (fun t => t.run == .halted && t.fault == .endOfMemory) = true ∧
    after (.sknp 0) (start 0x202 [(0, 16)]) (fun t => t.run == .halted && t.fault == .keyIndexOutOfRange) = true := by decide

theorem wit_RunChangesOnlyByWaitOrHalt :
    after (.ldVxK 3) State.reset (fun t => t.run != State.reset.run) = true ∧
    after .ret State.reset (fun t => t.fault != State.reset.fault) = true ∧
    after (.ldRegs 15) { State.reset with i := 0xFFFF } (fun t => t.faultInfo != State.reset.faultInfo) = true := by decide

theorem wit_RandomByteReachesOnlyCxnn :
    (∀ x nn, Instr.jp 0x300 ≠ .rnd x nn) ∧ after (.jp 0x300) State.reset (fun _ => true) = true :=
  ⟨fun _ _ h => (by cases h), by decide⟩

theorem wit_KeypadReachesOnlyKeySkips :
    (∀ x, Instr.ldVxK 3 ≠ .skp x ∧ Instr.ldVxK 3 ≠ .sknp x) ∧ after (.ldVxK 3) State.reset (fun _ => true) = true :=
  ⟨fun _ => ⟨fun h => (by cases h), fun h => (by cases h)⟩, by decide⟩

/-- A `CALL 0x300` at `0x200`: PC and the stack even, the target even. -/
def evenCall : State := { State.reset with mem := [(0x200, 0x23)], events := [.instrTick 0 0] }

theorem wit_EvenTargetsKeepPcEven :
    evenCall.pcEven ∧ stepped evenCall (fun t => t.pc == 0x300) = true ∧
    ∀ i, decodeWord (evenCall.readByte evenCall.pc.toNat ++ evenCall.readByte (evenCall.pc.toNat + 1)) = .instr i →
      JumpsEven i evenCall := by
  refine ⟨⟨by decide, by decide⟩, by decide, ?_⟩
  intro i h
  have hd : decodeWord (evenCall.readByte evenCall.pc.toNat ++ evenCall.readByte (evenCall.pc.toNat + 1)) =
    .instr (.call 0x300) := by decide
  cases h.symm.trans hd
  constructor
  · rintro nnn (h | h) <;> cases h
    decide
  · intro nnn h
    cases h

/-- The word `1hhh` at `h`, PC there. -/
def selfJumpAt (h : Addr12) : State :=
  { start (zextAddr h) [] with
    mem := Memory.writeBytes [] h.toNat (encodeBytes (.jp h)), events := [.instrTick 0 0] }

theorem wit_SelfJumpEndsTheRun : ∀ h : Addr12, h = 0x200 ∨ h = 0xFFD →
    (selfJumpAt h).run = .running ∧ h.toNat ≤ 0xFFD ∧ (selfJumpAt h).events = .instrTick 0 0 :: [] ∧
    (EndOfRun.selfJump h).reached 1 (selfJumpAt h) = true := by
  rintro _ (rfl | rfl) <;> decide

end Sys2Proof.Tests
end

section
/-! PROOFS. The held inputs of a tick, the keypad sample (10_state.md R33) and the random byte (R34): which instructions
can tell two states apart that differ only in them. Every shared operation commutes with a change of the inputs, so an
instruction does too unless it reads an input that changes. -/

namespace Sys2Proof.Machine

/-- The state with other held inputs. -/
def State.withInputs (k : Keys) (b : Byte) (s : State) : State := { s with key := k, rnd := b }

@[simp] theorem withInputs_self (s : State) : s.withInputs s.key s.rnd = s := rfl

/-! ### The shared operations -/

theorem raise_withInputs (c : Cause) (n : Nat) (s : State) (k : Keys) (b : Byte) :
    (s.withInputs k b).raise c n = (s.raise c n).withInputs k b := rfl

theorem advancePC_withInputs (s : State) (k : Keys) (b : Byte) :
    (s.withInputs k b).advancePC = s.advancePC.withInputs k b := by
  rcases Nat.lt_or_ge 0xFFF (s.pc.toNat + 2) with hpc | hpc
  · rw [advancePC_raise s hpc, advancePC_raise (s.withInputs k b) hpc]
    rfl
  · rw [advancePC_ok s hpc, advancePC_ok (s.withInputs k b) hpc]
    rfl

theorem skipIf_withInputs (taken : Bool) (s : State) (k : Keys) (b : Byte) :
    (s.withInputs k b).skipIf taken = (s.skipIf taken).withInputs k b := by
  cases taken with
  | false => rfl
  | true => exact advancePC_withInputs s k b

theorem checkRange_withInputs (a n : Nat) (s : State) {ok ok' : State} {k : Keys} {b : Byte}
    (hok : ok' = ok.withInputs k b) :
    (s.withInputs k b).checkRange a n ok' = (s.checkRange a n ok).withInputs k b := by
  subst hok
  rcases checkRange_cases a n s ok with ⟨hin, heq⟩ | ⟨hn, hout, heq⟩
  · rw [heq, checkRange_ok _ _ hin]
  · rw [heq, checkRange_raise _ _ hn hout, raise_withInputs]

theorem popAndJump_withInputs (s : State) (k : Keys) (b : Byte) :
    (s.withInputs k b).popAndJump = s.popAndJump.withInputs k b := by
  rcases Nat.eq_zero_or_pos s.sp.val with hsp | hsp
  · rw [popAndJump_empty s hsp, popAndJump_empty (s.withInputs k b) hsp, raise_withInputs]
  · rw [popAndJump_some s hsp, popAndJump_some (s.withInputs k b) hsp]
    rfl

theorem pushAndJump_withInputs (w : Word) (s : State) (k : Keys) (b : Byte) :
    (s.withInputs k b).pushAndJump w = (s.pushAndJump w).withInputs k b := by
  rcases Nat.eq_or_lt_of_le (Nat.le_of_lt_succ s.sp.isLt) with hsp | hsp
  · rw [pushAndJump_full w s hsp, pushAndJump_full w (s.withInputs k b) hsp, raise_withInputs]
  · rw [pushAndJump_room w s hsp, pushAndJump_room w (s.withInputs k b) hsp]
    rfl

/-- A keypad skip looks at the keypad sample, and not at the random byte. -/
theorem skipIfKey_withInputs (down : Bool) (x : Reg) (s : State) (b : Byte) :
    (s.withInputs s.key b).skipIfKey down x = (s.skipIfKey down x).withInputs s.key b := by
  cases hi : keyIndex s.keyIndexMode (s.getV x) with
  | none =>
    rw [skipIfKey_none down hi, skipIfKey_none (s := s.withInputs s.key b) down hi]
    rfl
  | some j =>
    rw [skipIfKey_some down hi, skipIfKey_some (s := s.withInputs s.key b) down hi]
    exact skipIf_withInputs _ s s.key b

/-! ### The instructions -/

/-- An instruction carries other held inputs along unchanged, as long as an `EX9E` or `EXA1` keeps its keypad sample and a
`CXNN` its random byte. -/
theorem exec_withInputs {i : Instr} {s t : State} {k : Keys} {b : Byte}
    (hkey : (∀ x, i ≠ .skp x ∧ i ≠ .sknp x) ∨ k = s.key) (hrnd : (∀ x nn, i ≠ .rnd x nn) ∨ b = s.rnd)
    (h : exec i s = .next t) : exec i (s.withInputs k b) = .next (t.withInputs k b) := by
  cases i
  all_goals
    injection h with h
    subst h
    refine congrArg Host.Outcome.next ?_
  case rnd x nn =>
    obtain rfl : b = s.rnd := hrnd.resolve_left fun hne => hne x nn rfl
    rfl
  case skp x =>
    obtain rfl : k = s.key := hkey.resolve_left fun hne => (hne x).1 rfl
    exact skipIfKey_withInputs true x s b
  case sknp x =>
    obtain rfl : k = s.key := hkey.resolve_left fun hne => (hne x).2 rfl
    exact skipIfKey_withInputs false x s b
  case ret => exact popAndJump_withInputs s k b
  case call => exact pushAndJump_withInputs _ s k b
  case seImm | sneImm | seReg | sneReg => exact skipIf_withInputs _ s k b
  case jpV0 => rw [apply_ite (State.withInputs k b)]; rfl
  case drw | ldB | stRegs | ldRegs => exact checkRange_withInputs _ _ s rfl
  all_goals rfl

/-- No instruction changes the held inputs. -/
theorem exec_keeps_inputs {i : Instr} {s t : State} (h : exec i s = .next t) : t.key = s.key ∧ t.rnd = s.rnd := by
  have hself := exec_withInputs (k := s.key) (b := s.rnd) (.inr rfl) (.inr rfl) h
  rw [withInputs_self] at hself
  have heq : t = t.withInputs s.key s.rnd := Host.Outcome.next.inj (h.symm.trans hself)
  exact ⟨(congrArg State.key heq :), (congrArg State.rnd heq :)⟩

/-- Settles O56: with the keypad sample kept, the random byte alone changes, and only `CXNN` reads it. -/
theorem randomByteReachesOnlyCxnn : Obligations.RandomByteReachesOnlyCxnn := by
  intro i s t b hne h
  have hcarry : exec i (s.withInputs s.key b) = .next (t.withInputs s.key b) := exec_withInputs (.inr rfl) (.inl hne) h
  have hkey : t.withInputs s.key b = { t with rnd := b } := (exec_keeps_inputs h).1 ▸ rfl
  exact hkey ▸ hcarry

end Sys2Proof.Machine
end

section
/-! PROOFS. What an instruction can do (10_state.md R13 to R27, 60_exceptions.md R132, R136): it halts the core by a
condition of its own and changes nothing else, or it changes only the components it writes. The two tables here, and the
one inversion of `exec` over them, are what the statements about the writers of the state follow from. -/

namespace Sys2Proof

open Machine

/-! ### The tables -/

/-- The components an instruction writes when it completes (R13 to R25). -/
def Instr.writes : Instr → List Comp
  | .cls => [.fb]
  | .drw _ _ _ => [.v, .fb]
  | .call _ => [.pc, .sp, .stack]
  | .ret => [.pc, .sp]
  | .jp _ | .jpV0 _ | .seImm _ _ | .sneImm _ _ | .seReg _ _ | .sneReg _ _ | .skp _ | .sknp _ => [.pc]
  | .ldI _ | .addI _ | .ldF _ => [.i]
  | .ldB _ | .stRegs _ => [.mem]
  | .ldDtVx _ => [.dt]
  | .ldStVx _ => [.st]
  | .ldVxK _ => [.run]
  | .ldImm _ _ | .addImm _ _ | .ldReg _ _ | .orReg _ _ | .andReg _ _ | .xorReg _ _ | .addReg _ _ | .sub _ _ | .shr _ _
  | .subn _ _ | .shl _ _ | .rnd _ _ | .ldVxDt _ | .ldRegs _ => [.v]

/-- The fatal conditions an instruction can raise (R132). -/
def Instr.causes : Instr → List Cause
  | .call _ => [.stackOverflow]
  | .ret => [.stackUnderflow]
  | .jpV0 _ | .drw _ _ _ | .ldB _ | .stRegs _ | .ldRegs _ => [.memoryOutOfBounds]
  | .seImm _ _ | .sneImm _ _ | .seReg _ _ | .sneReg _ _ => [.endOfMemory]
  | .skp _ | .sknp _ => [.keyIndexOutOfRange, .endOfMemory]
  | _ => []

end Sys2Proof

namespace Sys2Proof.Machine

/-! ### Halting or keeping -/

/-- `Frame` with memory kept as it is listed, not only byte by byte. -/
structure Keeps (may : List Comp) (s t : State) : Prop where
  frame : Frame may s t
  mem : .mem ∉ may → t.mem = s.mem

/-- The core halted by one of the causes with nothing else changed, or only the components of `may` changed. -/
def HaltsOrKeeps (causes : List Cause) (may : List Comp) (s t : State) : Prop :=
  (∃ c ∈ causes, ∃ n, t = s.raise c n) ∨ Keeps may s t

/-! ### The shared operations -/

theorem haltsOrKeeps_raise {c : Cause} {causes : List Cause} (hc : c ∈ causes) (may : List Comp) (s : State) (n : Nat) :
    HaltsOrKeeps causes may s (s.raise c n) :=
  .inl ⟨c, hc, n, rfl⟩

theorem skipIf_haltsOrKeeps {causes : List Cause} (hc : .endOfMemory ∈ causes) (taken : Bool) (s : State) :
    HaltsOrKeeps causes [.pc] s (s.skipIf taken) := by
  rcases skipIf_cases taken s with ⟨-, heq⟩ | ⟨-, -, heq⟩ | ⟨-, -, heq⟩
  · rw [heq]; exact .inr ⟨Frame.refl _ s, fun _ => rfl⟩
  · rw [heq]; exact .inr ⟨frame_setPc s _, fun _ => rfl⟩
  · rw [heq]; exact haltsOrKeeps_raise hc _ s _

theorem skipIfKey_haltsOrKeeps (down : Bool) (x : Reg) (s : State) :
    HaltsOrKeeps [.keyIndexOutOfRange, .endOfMemory] [.pc] s (s.skipIfKey down x) := by
  rcases skipIfKey_cases down x s with heq | ⟨taken, heq⟩
  · rw [heq]; exact haltsOrKeeps_raise (by simp) _ s _
  · rw [heq]; exact skipIf_haltsOrKeeps (by simp) taken s

theorem checkRange_haltsOrKeeps (a n : Nat) {may : List Comp} {s ok : State} (hok : Keeps may s ok) :
    HaltsOrKeeps [.memoryOutOfBounds] may s (s.checkRange a n ok) := by
  rcases checkRange_cases a n s ok with ⟨-, heq⟩ | ⟨-, -, heq⟩
  · rw [heq]; exact .inr hok
  · rw [heq]; exact haltsOrKeeps_raise (by simp) _ s _

theorem popAndJump_haltsOrKeeps (s : State) : HaltsOrKeeps [.stackUnderflow] [.pc, .sp] s s.popAndJump := by
  rcases Nat.eq_zero_or_pos s.sp.val with hsp | hsp
  · rw [popAndJump_empty s hsp]; exact haltsOrKeeps_raise (by simp) _ s _
  · rw [popAndJump_some s hsp]; exact .inr ⟨by simp [Frame, State.getV, State.readByte], fun _ => rfl⟩

theorem pushAndJump_haltsOrKeeps (w : Word) (s : State) :
    HaltsOrKeeps [.stackOverflow] [.pc, .sp, .stack] s (s.pushAndJump w) := by
  rcases Nat.eq_or_lt_of_le (Nat.le_of_lt_succ s.sp.isLt) with hsp | hsp
  · rw [pushAndJump_full w s hsp]; exact haltsOrKeeps_raise (by simp) _ s _
  · rw [pushAndJump_room w s hsp]; exact .inr ⟨by simp [Frame, State.getV, State.readByte], fun _ => rfl⟩

/-! ### The instructions -/

/-- Everything an instruction can do: it halts the core by one of its causes, or changes only what it writes. -/
theorem exec_haltsOrKeeps {i : Instr} {s t : State} (h : exec i s = .next t) :
    HaltsOrKeeps i.causes i.writes s t := by
  cases i
  all_goals
    injection h with h
    subst h
  case cls => exact .inr ⟨frame_setFb s _, fun _ => rfl⟩
  case ret => exact popAndJump_haltsOrKeeps s
  case call => exact pushAndJump_haltsOrKeeps _ s
  case jp => exact .inr ⟨frame_setPc s _, fun _ => rfl⟩
  case jpV0 nnn =>
    split
    · exact haltsOrKeeps_raise (by simp [Instr.causes]) _ s _
    · exact .inr ⟨frame_setPc s _, fun _ => rfl⟩
  case seImm | sneImm | seReg | sneReg => exact skipIf_haltsOrKeeps (by simp [Instr.causes]) _ s
  case skp | sknp => exact skipIfKey_haltsOrKeeps _ _ s
  case addReg | sub | shr | subn | shl => exact .inr ⟨frame_setVFlag s _ _ _, fun _ => rfl⟩
  case drw => exact checkRange_haltsOrKeeps _ _ ⟨by simp [Frame, Instr.writes], fun _ => rfl⟩
  case ldI | addI | ldF => exact .inr ⟨frame_setI s _, fun _ => rfl⟩
  case ldB | stRegs => exact checkRange_haltsOrKeeps _ _ ⟨frame_setMem s _, by simp [Instr.writes]⟩
  case ldRegs => exact checkRange_haltsOrKeeps _ _ ⟨frame_setAllV s _, fun _ => rfl⟩
  case ldVxK => exact .inr ⟨frame_setRun s _, fun _ => rfl⟩
  case ldDtVx => exact .inr ⟨frame_setDt s _, fun _ => rfl⟩
  case ldStVx => exact .inr ⟨frame_setSt s _, fun _ => rfl⟩
  case ldImm | addImm | ldReg | orReg | andReg | xorReg | rnd | ldVxDt => exact .inr ⟨frame_setV s _ _, fun _ => rfl⟩

/-! ### The writers of a component, read off the table -/

theorem i_mem_writes_iff (i : Instr) :
    .i ∈ i.writes ↔ (∃ nnn, i = .ldI nnn) ∨ (∃ x, i = .addI x) ∨ ∃ x, i = .ldF x := by
  cases i <;> simp [Instr.writes]

theorem pc_mem_writes_iff (i : Instr) :
    .pc ∈ i.writes ↔ (∃ nnn, i = .jp nnn ∨ i = .call nnn ∨ i = .jpV0 nnn) ∨ i = .ret ∨
      (∃ x nn, i = .seImm x nn ∨ i = .sneImm x nn) ∨ (∃ x y, i = .seReg x y ∨ i = .sneReg x y) ∨
      ∃ x, i = .skp x ∨ i = .sknp x := by
  cases i <;> simp [Instr.writes]

theorem sp_mem_writes_iff (i : Instr) : .sp ∈ i.writes ↔ i = .ret ∨ ∃ nnn, i = .call nnn := by
  cases i <;> simp [Instr.writes]

theorem stack_mem_writes_iff (i : Instr) : .stack ∈ i.writes ↔ ∃ nnn, i = .call nnn := by
  cases i <;> simp [Instr.writes]

theorem mem_mem_writes_iff (i : Instr) : .mem ∈ i.writes ↔ ∃ x, i = .ldB x ∨ i = .stRegs x := by
  cases i <;> simp [Instr.writes]

theorem dt_mem_writes_iff (i : Instr) : .dt ∈ i.writes ↔ ∃ x, i = .ldDtVx x := by
  cases i <;> simp [Instr.writes]

theorem st_mem_writes_iff (i : Instr) : .st ∈ i.writes ↔ ∃ x, i = .ldStVx x := by
  cases i <;> simp [Instr.writes]

theorem fb_mem_writes_iff (i : Instr) : .fb ∈ i.writes ↔ i = .cls ∨ ∃ x y n, i = .drw x y n := by
  cases i <;> simp [Instr.writes]

theorem run_mem_writes_iff (i : Instr) : .run ∈ i.writes ↔ ∃ x, i = .ldVxK x := by
  cases i <;> simp [Instr.writes]

theorem ir_not_mem_writes (i : Instr) : .ir ∉ i.writes := by cases i <;> simp [Instr.writes]

theorem fault_not_mem_writes (i : Instr) : .fault ∉ i.writes := by cases i <;> simp [Instr.writes]

/-- Settles O53: a halt changes no component named here, and a completed instruction only those of its row. -/
theorem specialStateHasOnlyItsWriters : Obligations.SpecialStateHasOnlyItsWriters := by
  intro i s t h
  rcases exec_haltsOrKeeps h with ⟨c, -, n, rfl⟩ | hkeeps
  · simp
  · obtain ⟨-, hi, hpc, hsp, hstack, -, hdt, hst, hfb, hir, -⟩ := hkeeps.frame
    exact ⟨fun hne => (i_mem_writes_iff i).mp (not_imp_comm.mp hi hne),
      fun hne => (pc_mem_writes_iff i).mp (not_imp_comm.mp hpc hne),
      fun hne => (sp_mem_writes_iff i).mp (not_imp_comm.mp hsp hne),
      fun hne => (stack_mem_writes_iff i).mp (not_imp_comm.mp hstack hne),
      fun hne => (mem_mem_writes_iff i).mp (not_imp_comm.mp hkeeps.mem hne),
      fun hne => (dt_mem_writes_iff i).mp (not_imp_comm.mp hdt hne),
      fun hne => (st_mem_writes_iff i).mp (not_imp_comm.mp hst hne),
      fun hne => (fb_mem_writes_iff i).mp (not_imp_comm.mp hfb hne),
      hir (ir_not_mem_writes i)⟩

/-! ### RUN and FAULT -/

/-- An instruction that completes leaves RUN alone, unless it is the `FX0A` that enters the wait. -/
theorem exec_run_of_keeps {i : Instr} {s t : State} (h : exec i s = .next t) (hkeeps : Keeps i.writes s t) :
    t.run = s.run ∨ ∃ x, i = .ldVxK x ∧ t.run = .waitingForKey x := by
  obtain ⟨-, -, -, -, -, -, -, -, -, -, hrun, -⟩ := hkeeps.frame
  by_cases hw : .run ∈ i.writes
  · obtain ⟨x, rfl⟩ := (run_mem_writes_iff i).mp hw
    injection h with h
    subst h
    exact .inr ⟨x, rfl, rfl⟩
  · exact .inl (hrun hw)

theorem fault_of_keeps {i : Instr} {s t : State} (hkeeps : Keeps i.writes s t) :
    t.fault = s.fault ∧ t.faultInfo = s.faultInfo := by
  obtain ⟨-, -, -, -, -, -, -, -, -, -, -, hfault, -⟩ := hkeeps.frame
  exact hfault (fault_not_mem_writes i)

/-- Settles O55: a halt is the first alternative of both clauses; a completed instruction keeps FAULT, and RUN but for
`FX0A`. -/
theorem runChangesOnlyByWaitOrHalt : Obligations.RunChangesOnlyByWaitOrHalt := by
  intro i s t h
  rcases exec_haltsOrKeeps h with ⟨c, -, n, rfl⟩ | hkeeps
  · exact ⟨fun _ => .inl rfl, fun _ => rfl⟩
  · obtain ⟨hfault, hinfo⟩ := fault_of_keeps hkeeps
    exact ⟨fun hne => .inr ((exec_run_of_keeps h hkeeps).resolve_left hne),
      fun hne => absurd hne (by simp [hfault, hinfo])⟩

/-! ### The V registers -/

theorem checkRange_getV {a n : Nat} {s ok : State} {r : Reg} (hok : ok.getV r = s.getV r) :
    (s.checkRange a n ok).getV r = s.getV r := by
  rcases checkRange_cases a n s ok with ⟨-, heq⟩ | ⟨-, -, heq⟩
  · rw [heq]; exact hok
  · rw [heq]; rfl

/-- A register an instruction may not write reads as before. -/
theorem exec_getV_of_not_mayWriteV {i : Instr} {s t : State} {r : Reg} (h : exec i s = .next t)
    (hr : ¬ MayWriteV i r) : t.getV r = s.getV r := by
  rcases exec_haltsOrKeeps h with ⟨c, -, n, rfl⟩ | hkeeps
  · rfl
  obtain ⟨hv, -⟩ := hkeeps.frame
  cases i
  case ldImm | addImm | ldReg | orReg | andReg | xorReg | rnd | ldVxDt =>
    injection h with h
    subst h
    exact keepsV_setV s _ _ r (by simpa [MayWriteV] using hr)
  case addReg | sub | shr | subn | shl =>
    injection h with h
    subst h
    exact keepsV_setVFlag s _ _ _ r (by simpa [MayWriteV] using hr)
  case drw =>
    injection h with h
    subst h
    exact checkRange_getV (keepsV_setV _ VF _ r (by simpa [MayWriteV] using hr))
  case ldRegs x =>
    injection h with h
    subst h
    have hgt : ¬ r.val ≤ x.val := hr
    exact checkRange_getV (by simp [hgt])
  all_goals exact hv (by simp [Instr.writes]) r

/-- Settles O52: the contrapositive, register by register. -/
theorem vRegistersChangeOnlyAsDestinations : Obligations.VRegistersChangeOnlyAsDestinations := by
  intro i s t r h hne
  by_contra hr
  exact hne (exec_getV_of_not_mayWriteV h hr)

/-- Settles O57: with the random byte kept, the keypad sample alone changes, and only `EX9E` and `EXA1` read it. -/
theorem keypadReachesOnlyKeySkips : Obligations.KeypadReachesOnlyKeySkips := by
  intro i s t k hne h
  have hcarry : exec i (s.withInputs k s.rnd) = .next (t.withInputs k s.rnd) := exec_withInputs (.inl hne) (.inr rfl) h
  have hrnd : t.withInputs k s.rnd = { t with key := k } := (exec_keeps_inputs h).2 ▸ rfl
  exact hrnd ▸ hcarry

end Sys2Proof.Machine
end

section
/-! PROOFS. What an event can do (00_scope.md R10, 10_state.md R25), and the two properties every event keeps: the invariant
(R17, R26, R38) and even addresses (R38, 70_reset_and_hazards.md R161). Both speak of PC and the stack slots, so what an
event does to these is proved once, for any property of an address. -/

namespace Sys2Proof.Machine

/-! ### The inversion of an event -/

/-- What a state becomes by one event, whichever it is. -/
inductive EventMoves (s : State) : State → Prop
  /-- a tick in Halted, or a poll of the keypad with no key down (R120, R127, R144) -/
  | idle : EventMoves s s
  /-- the end of the wait (R121) -/
  | wake {x : Reg} (b : Byte) (hrun : s.run = .waitingForKey x) : EventMoves s ((s.setV x b).setRun .running)
  /-- the fetch at the end of memory (R67) -/
  | fetchEnd (hrun : s.run = .running) (hpc : s.pc.toNat + 2 > 0xFFF) :
      EventMoves s (s.raise .endOfMemory s.pc.toNat)
  /-- a fetch, and the instruction fetched (R66) -/
  | instr {t : State} {i : Instr} (k : Keys) (r : Byte) (hrun : s.run = .running) (hpc : s.pc.toNat + 2 ≤ 0xFFF)
      (hdec : decodeWord (s.wordAt s.pc.toNat) = .instr i) (hexec : exec i (s.fetched k r) = .next t) : EventMoves s t
  /-- the fetch of an unknown word (R64) -/
  | unknown {u : UnknownSet} (k : Keys) (r : Byte) (hrun : s.run = .running) (hpc : s.pc.toNat + 2 ≤ 0xFFF)
      (hdec : decodeWord (s.wordAt s.pc.toNat) = .unknown u) : EventMoves s (s.fetched k r)
  /-- a timer tick outside Halted (R125) -/
  | count (hrun : s.run ≠ .halted) : EventMoves s ((s.setDt (countDown s.dt)).setSt (countDown s.st))
  /-- a reset (R153) -/
  | reset : EventMoves s s.warmReset

theorem eventMoves_waitStep {s : State} {x : Reg} (k : Keys) (hrun : s.run = .waitingForKey x) :
    EventMoves s (s.waitStep x k) := by
  cases hsel : selectKey k with
  | none =>
    rw [waitStep_none s x ((selectKey_eq_none_iff k).mp hsel)]
    exact .idle
  | some j =>
    rw [waitStep_some s x hsel]
    exact .wake _ hrun

theorem eventMoves_of_runInstr {k : Keys} {r : Byte} {s t : State} (hrun : s.run = .running)
    (h : runInstr k r s = .next t) : EventMoves s t := by
  rcases runInstr_cases k r s with ⟨hpc, heq⟩ | ⟨hpc, i, hdec, heq⟩ | ⟨hpc, u, hdec, heq⟩
  · cases heq.symm.trans h
    exact .fetchEnd hrun hpc
  · exact .instr k r hrun hpc hdec (heq.symm.trans h)
  · cases heq.symm.trans h
    exact .unknown k r hrun hpc hdec

theorem eventMoves_of_instrTick {k : Keys} {r : Byte} {s t : State} (h : instrTick k r s = .next t) :
    EventMoves s t := by
  cases hrun : s.run with
  | halted =>
    cases (instrTick_halted k r hrun).symm.trans h
    exact .idle
  | waitingForKey x =>
    cases (instrTick_waiting k r hrun).symm.trans h
    exact eventMoves_waitStep k hrun
  | running => exact eventMoves_of_runInstr hrun ((instrTick_running k r hrun).symm.trans h)

theorem eventMoves_timerTick (s : State) : EventMoves s s.timerTick := by
  by_cases hrun : s.run = .halted
  · rw [timerTick_halted hrun]
    exact .idle
  · rw [timerTick_counting hrun]
    exact .count hrun

theorem eventMoves_of_perform {e : Event} {s t : State} (h : perform e s = .next t) : EventMoves s t := by
  cases e with
  | instrTick k r => exact eventMoves_of_instrTick h
  | timerTick =>
    cases h
    exact eventMoves_timerTick s
  | reset =>
    cases h
    exact .reset

/-- A step is an event in a state that differs only in the events to come and the draws. -/
theorem eventMoves_of_step {s t : State} (h : step s = .next t) :
    ∃ es d, EventMoves { s with events := es, draws := d } t := by
  obtain ⟨e, es, d, heq⟩ := step_cases s
  exact ⟨es, d, eventMoves_of_perform (heq.symm.trans h)⟩

/-! ### Addresses: PC and the stack slots -/

/-- PC and every stack slot satisfy `P`, as numbers. -/
def State.AllAddrs (P : Nat → Prop) (s : State) : Prop := P s.pc.toNat ∧ ∀ k : Fin 16, P (s.stack[k.val]).toNat

/-- Every address the instruction may jump to in `s` satisfies `P`; for `BNNN` only a target inside MEM (R82). -/
def JumpsInto (P : Nat → Prop) (i : Instr) (s : State) : Prop :=
  (∀ nnn, i = .jp nnn ∨ i = .call nnn → P nnn.toNat) ∧
  ∀ nnn, i = .jpV0 nnn → s.indexedTarget nnn ≤ 0xFFF → P (s.indexedTarget nnn)

theorem zextAddr_toNat (nnn : Addr12) : (zextAddr nnn).toNat = nnn.toNat := by
  have := nnn.isLt
  simp [zextAddr]
  omega

section
variable {P : Nat → Prop} {s : State}

theorem setPc_allAddrs {w : Word} (hw : P w.toNat) (hs : s.AllAddrs P) : (s.setPc w).AllAddrs P := ⟨hw, hs.2⟩

theorem skipIf_allAddrs (hadv : s.pc.toNat + 2 ≤ 0xFFF → P (s.pc.toNat + 2)) (taken : Bool) (hs : s.AllAddrs P) :
    (s.skipIf taken).AllAddrs P := by
  rcases skipIf_cases taken s with ⟨-, heq⟩ | ⟨-, hpc, heq⟩ | ⟨-, -, heq⟩
  · rw [heq]; exact hs
  · rw [heq]
    refine setPc_allAddrs ?_ hs
    rw [pc_add_two_toNat s.pc hpc]
    exact hadv hpc
  · rw [heq]; exact hs

theorem skipIfKey_allAddrs (hadv : s.pc.toNat + 2 ≤ 0xFFF → P (s.pc.toNat + 2)) (down : Bool) (x : Reg)
    (hs : s.AllAddrs P) : (s.skipIfKey down x).AllAddrs P := by
  rcases skipIfKey_cases down x s with heq | ⟨taken, heq⟩
  · rw [heq]; exact hs
  · rw [heq]; exact skipIf_allAddrs hadv taken hs

theorem popAndJump_allAddrs (hs : s.AllAddrs P) : s.popAndJump.AllAddrs P := by
  rcases Nat.eq_zero_or_pos s.sp.val with hsp | hsp
  · rw [popAndJump_empty s hsp]; exact hs
  · rw [popAndJump_some s hsp]; exact ⟨hs.2 ⟨s.sp.val - 1, by omega⟩, hs.2⟩

theorem pushAndJump_allAddrs {w : Word} (hw : P w.toNat) (hs : s.AllAddrs P) : (s.pushAndJump w).AllAddrs P := by
  obtain ⟨hpc, hstack⟩ := hs
  rcases Nat.eq_or_lt_of_le (Nat.le_of_lt_succ s.sp.isLt) with hsp | hsp
  · rw [pushAndJump_full w s hsp]; exact ⟨hpc, hstack⟩
  · rw [pushAndJump_room w s hsp]
    refine ⟨hw, fun k => ?_⟩
    rw [Vector.getElem_set]
    split
    · exact hpc
    · exact hstack k

/-- `BNNN` either halts or loads PC with a target inside MEM. -/
theorem indexedJump_allAddrs {n : Nat} (hn : n ≤ 0xFFF → P n) (hs : s.AllAddrs P) :
    State.AllAddrs P (if n > 0xFFF then s.raise .memoryOutOfBounds n else s.setPc (BitVec.ofNat 16 n)) := by
  split
  · exact hs
  · refine setPc_allAddrs ?_ hs
    rw [BitVec.toNat_ofNat, Nat.mod_eq_of_lt (by omega)]
    exact hn (by omega)

/-- An instruction that does not write PC leaves every address alone, since it does not write the stack either. -/
theorem allAddrs_of_keeps {i : Instr} {t : State} (hkeeps : Keeps i.writes s t) (hno : .pc ∉ i.writes)
    (hs : s.AllAddrs P) : t.AllAddrs P := by
  obtain ⟨-, -, hpc, -, hstack, -⟩ := hkeeps.frame
  have hnoStack : .stack ∉ i.writes := fun hin => by
    obtain ⟨nnn, rfl⟩ := (stack_mem_writes_iff i).mp hin
    exact hno (by simp [Instr.writes])
  rw [State.AllAddrs, hpc hno, hstack hnoStack]
  exact hs

/-- Every address after an instruction is one of before, a skip's, or a jump's target. -/
theorem exec_allAddrs {i : Instr} {t : State} (hadv : s.pc.toNat + 2 ≤ 0xFFF → P (s.pc.toNat + 2))
    (hjump : JumpsInto P i s) (hs : s.AllAddrs P) (h : exec i s = .next t) : t.AllAddrs P := by
  rcases exec_haltsOrKeeps h with ⟨c, -, n, rfl⟩ | hkeeps
  · exact hs
  by_cases hno : .pc ∉ i.writes
  · exact allAddrs_of_keeps hkeeps hno hs
  obtain ⟨hdirect, hindexed⟩ := hjump
  rcases (pc_mem_writes_iff i).mp (not_not.mp hno) with
    ⟨nnn, rfl | rfl | rfl⟩ | rfl | ⟨x, nn, rfl | rfl⟩ | ⟨x, y, rfl | rfl⟩ | ⟨x, rfl | rfl⟩
  all_goals
    injection h with h
    subst h
  · exact setPc_allAddrs (by rw [zextAddr_toNat]; exact hdirect nnn (.inl rfl)) hs
  · exact pushAndJump_allAddrs (by rw [zextAddr_toNat]; exact hdirect nnn (.inr rfl)) hs
  · exact indexedJump_allAddrs (hindexed nnn rfl) hs
  · exact popAndJump_allAddrs hs
  -- the four register and immediate skips, then the two keypad skips
  iterate 4 exact skipIf_allAddrs hadv _ hs
  iterate 2 exact skipIfKey_allAddrs hadv _ x hs

/-- An event keeps a property of all addresses that the PC advance keeps, that the boot addresses have, and that every
target of the fetched instruction has. -/
theorem EventMoves.allAddrs {t : State} (h : EventMoves s t) (hs : s.AllAddrs P)
    (hadv : ∀ n, P n → n + 2 ≤ 0xFFF → P (n + 2)) (hboot : State.reset.AllAddrs P)
    (hjump : ∀ i, decodeWord (s.wordAt s.pc.toNat) = .instr i → JumpsInto P i s) : t.AllAddrs P := by
  have hfetched (k : Keys) (r : Byte) (hpc : s.pc.toNat + 2 ≤ 0xFFF) : (s.fetched k r).AllAddrs P := by
    refine ⟨?_, hs.2⟩
    rw [fetched_pc, pc_add_two_toNat s.pc hpc]
    exact hadv _ hs.1 hpc
  cases h with
  | idle | wake | fetchEnd | count => exact hs
  | reset => exact hboot
  | unknown k r _ hpc => exact hfetched k r hpc
  | instr k r hrun hpc hdec hexec =>
    exact exec_allAddrs (s := s.fetched k r) (hadv _ (hfetched k r hpc).1) (hjump _ hdec) (hfetched k r hpc) hexec

end

theorem reset_allAddrs {P : Nat → Prop} (hpc : P 0x200) (hzero : P 0) : State.reset.AllAddrs P :=
  ⟨hpc, fun k => by simpa [State.reset] using hzero⟩

/-! ### Even addresses -/

/-- Settles O58: evenness is kept by the PC advance, holds of the boot addresses, and is the premise on the targets. -/
theorem evenTargetsKeepPcEven : Obligations.EvenTargetsKeepPcEven := by
  intro s t hs h heven
  obtain ⟨es, d, hmoves⟩ := eventMoves_of_step h
  refine hmoves.allAddrs (P := (· % 2 = 0)) hs ?_ (reset_allAddrs rfl rfl) ?_
  · intro n hn _
    omega
  · intro i hdec
    obtain ⟨hdirect, hindexed⟩ := heven i hdec
    exact ⟨hdirect, fun nnn hi _ => hindexed nnn hi⟩

/-! ### The invariant: addresses in range -/

theorem EventMoves.pcInRange {s t : State} (h : EventMoves s t) (hs : s.pcInRange) : t.pcInRange := by
  refine h.allAddrs (P := (· ≤ 0xFFF)) hs ?_ (reset_allAddrs (by decide) (by decide)) ?_
  · exact fun _ _ hle => hle
  · exact fun _ _ => ⟨fun nnn _ => by have := nnn.isLt; omega, fun _ _ hle => hle⟩

/-! ### The invariant: canonical memory -/

/-- A store behind its range check keeps the canonical form, whether it happens or halts. -/
theorem wf_checkRange_writeBytes {s : State} {a n : Nat} {bs : List Byte} (hn : 0 < n) (hlen : bs.length = n)
    (hs : Memory.wf s.mem = true) :
    Memory.wf (s.checkRange a n (s.setMem (Memory.writeBytes s.mem a bs))).mem = true := by
  rcases checkRange_cases a n s (s.setMem (Memory.writeBytes s.mem a bs)) with ⟨hin, heq⟩ | ⟨-, -, heq⟩
  · rw [heq]; exact Memory.wf_writeBytes (by omega) hs
  · rw [heq]; exact hs

theorem exec_wf_mem {i : Instr} {s t : State} (h : exec i s = .next t) (hs : Memory.wf s.mem = true) :
    Memory.wf t.mem = true := by
  rcases exec_haltsOrKeeps h with ⟨c, -, n, rfl⟩ | hkeeps
  · exact hs
  by_cases hno : .mem ∉ i.writes
  · rw [hkeeps.mem hno]; exact hs
  obtain ⟨x, rfl | rfl⟩ := (mem_mem_writes_iff i).mp (not_not.mp hno)
  · cases (exec_ldB x s).symm.trans h
    exact wf_checkRange_writeBytes (by decide) rfl hs
  · cases (exec_stRegs x s).symm.trans h
    exact wf_checkRange_writeBytes (by omega) (regsThrough_length s x) hs

theorem EventMoves.wf_mem {s t : State} (h : EventMoves s t) (hs : Memory.wf s.mem = true) : Memory.wf t.mem = true := by
  cases h with
  | instr k r hrun hpc hdec hexec => exact exec_wf_mem hexec hs
  | idle | wake | fetchEnd | unknown | count | reset => exact hs

/-! ### The invariant: FAULT agrees with RUN -/

theorem raise_faultAgrees {c : Cause} (hnone : c ≠ .none) (hrom : c ≠ .romTooLarge) (s : State) (n : Nat) :
    (s.raise c n).faultAgrees :=
  ⟨fun hrun => absurd rfl hrun, fun _ => ⟨hnone, hrom⟩⟩

/-- Between two states that are not halted it is enough to keep FAULT. -/
theorem faultAgrees_of_not_halted {s t : State} (hs : s.faultAgrees) (hrun : s.run ≠ .halted) (hrun' : t.run ≠ .halted)
    (hfault : t.fault = s.fault ∧ t.faultInfo = s.faultInfo) : t.faultAgrees := by
  obtain ⟨hzero, hzeroInfo⟩ := hs.1 hrun
  exact ⟨fun _ => ⟨hfault.1.trans hzero, hfault.2.trans hzeroInfo⟩, fun hhalted => absurd hhalted hrun'⟩

/-- No instruction raises the loader's failure, or nothing (60_exceptions.md R138). -/
theorem causes_fatal (i : Instr) : ∀ c ∈ i.causes, c ≠ .none ∧ c ≠ .romTooLarge := by
  cases i <;> simp [Instr.causes]

theorem exec_faultAgrees {i : Instr} {s t : State} (hrun : s.run = .running) (h : exec i s = .next t)
    (hs : s.faultAgrees) : t.faultAgrees := by
  rcases exec_haltsOrKeeps h with ⟨c, hc, n, rfl⟩ | hkeeps
  · obtain ⟨hnone, hrom⟩ := causes_fatal i c hc
    exact raise_faultAgrees hnone hrom s n
  · have hrun' : t.run ≠ .halted := by
      rcases exec_run_of_keeps h hkeeps with heq | ⟨x, -, heq⟩ <;> simp [heq, hrun]
    exact faultAgrees_of_not_halted hs (by simp [hrun]) hrun' (fault_of_keeps hkeeps)

theorem reset_faultAgrees : State.reset.faultAgrees := ⟨fun _ => ⟨rfl, rfl⟩, fun hhalted => by cases hhalted⟩

theorem EventMoves.faultAgrees {s t : State} (h : EventMoves s t) (hs : s.faultAgrees) : t.faultAgrees := by
  cases h with
  | idle | unknown | count => exact hs
  | wake b hrun => exact faultAgrees_of_not_halted hs (by simp [hrun]) (by simp) ⟨rfl, rfl⟩
  | fetchEnd => exact raise_faultAgrees (by decide) (by decide) s _
  | instr k r hrun hpc hdec hexec => exact exec_faultAgrees (s := s.fetched k r) hrun hexec hs
  | reset => exact reset_faultAgrees

/-! ### The invariant -/

/-- Settles O51: each of the three parts is kept by whatever the event does. -/
theorem everyStepKeepsInvariant : Obligations.EveryStepKeepsInvariant := by
  intro s t hs h
  obtain ⟨hmem, haddr, hfault⟩ := hs
  obtain ⟨es, d, hmoves⟩ := eventMoves_of_step h
  exact ⟨hmoves.wf_mem hmem, hmoves.pcInRange haddr, hmoves.faultAgrees hfault⟩

/-- Settles O50, part by part. -/
theorem resetMeetsInvariant : Obligations.ResetMeetsInvariant :=
  ⟨rfl, reset_allAddrs (P := (· ≤ 0xFFF)) (by decide) (by decide), reset_faultAgrees⟩

/-! ### The state after reset, and the end of memory -/

/-- Settles O15: every field of the reset state is written out in it; the slots and the pixels are all 0. -/
theorem resetStateHoldsBootValues : Obligations.ResetStateHoldsBootValues :=
  ⟨rfl, rfl, rfl, rfl, reset_getV, rfl, fun _ => Vector.getElem_replicate _, Framebuffer.pixel_clear, rfl, rfl, rfl, rfl⟩

/-- Settles O9: the fetch's bound comes first, and `raise` changes nothing but RUN and FAULT. -/
theorem fetchPastEndOfMemoryHalts : Obligations.FetchPastEndOfMemoryHalts := by
  intro s k r es hrun hpc hev
  have hstep : step s = .next (State.raise .endOfMemory s.pc.toNat { s with events := es }) :=
    calc step s = instrTick k r { s with events := es } := step_of_event hev
      _ = runInstr k r { s with events := es } := instrTick_running k r hrun
      _ = .next (State.raise .endOfMemory s.pc.toNat { s with events := es }) := runInstr_end k r hpc
  exact ⟨_, hstep, raise_halts _ _ _⟩

end Sys2Proof.Machine
end

section
/-! PROOFS. Memory: what it holds at boot (20_memory.md R41, R42), and that a fetch reads what the instruction before it
stored (R54, 70_reset_and_hazards.md R158). -/

namespace Sys2Proof.Machine

/-! ### Boot memory -/

theorem bootByte_outside_font {a : Nat} (h : a < 0x050 ∨ 0x09F < a) : bootByte a = 0 := by
  rw [bootByte, if_neg (by omega)]

theorem bootByte_font : (List.range 80).map (fun k => bootByte (0x050 + k)) = fontTable := by decide

/-- Settles O16: an unlisted address reads as its boot byte, and memory lists none after reset. -/
theorem bootMemoryIsZeroButTheFont : Obligations.BootMemoryIsZeroButTheFont := by
  refine ⟨fun a ha => bootByte_outside_font ha, ?_⟩
  calc (List.range 80).map (fun k => (State.reset.readByte (0x050 + k)).toNat)
    _ = ((List.range 80).map fun k => bootByte (0x050 + k)).map BitVec.toNat := by rw [List.map_map]; rfl
    _ = fontTable.map BitVec.toNat := by rw [bootByte_font]

/-! ### A tick that fetches an instruction -/

theorem step_of_instr {s : State} {k : Keys} {r : Byte} {es : List Event} {i : Instr} (hrun : s.run = .running)
    (hev : s.events = .instrTick k r :: es) (hpc : s.pc.toNat + 2 ≤ 0xFFF)
    (hdec : decodeWord (s.wordAt s.pc.toNat) = .instr i) : step s = exec i ((s.withEvents es).fetched k r) :=
  calc step s = instrTick k r (s.withEvents es) := step_of_event hev
    _ = runInstr k r (s.withEvents es) := instrTick_running k r hrun
    _ = exec i ((s.withEvents es).fetched k r) := runInstr_instr k r hpc hdec

/-! ### The block an `FX55` stores -/

/-- The state after V0..VX are stored at I (42_index_memory.md R103). -/
def State.storeRegs (x : Reg) (s : State) : State :=
  s.setMem (Memory.writeBytes s.mem (s.effAddr 0) (s.regsThrough x))

theorem exec_stRegs_inside {s : State} {x : Reg} (h : s.effAddr x.val ≤ 0xFFF) :
    exec (.stRegs x) s = .next (s.storeRegs x) := by
  rw [exec_stRegs, checkRange_ok _ _ (.inr h), State.storeRegs]

theorem storeRegs_readByte {s : State} {x r : Reg} (hwf : Memory.wf s.mem = true) (hx : s.effAddr x.val ≤ 0xFFF)
    (hr : r.val ≤ x.val) : (s.storeRegs x).readByte (s.effAddr r.val) = s.getV r := by
  have hlen := regsThrough_length s x
  have hbound : s.effAddr 0 + (s.regsThrough x).length ≤ 0x1000 := by
    simp only [State.effAddr] at hx ⊢
    omega
  calc (s.storeRegs x).readByte (s.effAddr 0 + r.val)
    _ = (s.regsThrough x)[r.val] := Memory.read_writeBytes_inside hbound hwf (by omega)
    _ = s.getV r := regsThrough_getElem s x r (by omega)

/-- The first two registers of the block are the word at I, V0 its high byte (R47). -/
theorem storeRegs_wordAt {s : State} {x : Reg} (hwf : Memory.wf s.mem = true) (hx : s.effAddr x.val ≤ 0xFFF)
    (hone : 1 ≤ x.val) : (s.storeRegs x).wordAt s.i.toNat = s.getV 0 ++ s.getV 1 :=
  congrArg₂ wordOfBytes (storeRegs_readByte (r := 0) hwf hx (Nat.zero_le _)) (storeRegs_readByte (r := 1) hwf hx hone)

/-- Settles O41: the fetch leaves PC equal to I and the store keeps it there, so the next tick fetches the block's word. -/
theorem storedWordIsFetchedNext : Obligations.StoredWordIsFetchedNext := by
  intro s x j k k' r r' es hwf hrun hev hdec hone hi hpc hx hj
  let f := (s.withEvents (.instrTick k' r' :: es)).fetched k r
  let t := f.storeRegs x
  have hstore : step s = .next t :=
    (step_of_instr hrun hev (by omega) hdec).trans (exec_stRegs_inside (s := f) hx)
  have htpc : t.pc.toNat = s.pc.toNat + 2 := pc_add_two_toNat s.pc (by omega)
  have hword : t.wordAt t.pc.toNat = s.getV 0 ++ s.getV 1 := by
    rw [htpc, ← hi]
    exact storeRegs_wordAt (s := f) hwf hx hone
  have hnext : step t = exec j ((t.withEvents es).fetched k' r') :=
    step_of_instr hrun rfl (by omega) (hword ▸ hj)
  have hupc : (t.pc + 2).toNat = s.pc.toNat + 4 := by rw [pc_add_two_toNat t.pc (by omega), htpc]
  exact ⟨t, (t.withEvents es).fetched k' r', hstore, hupc, hword, rfl, rfl, hnext⟩

end Sys2Proof.Machine
end

section
/-! PROOFS. The decoder and the encoder (30_encoding.md R57 to R65, R72). `decodeWord_eq_iff` says once what decoding
answers: the instruction the word encodes, or the set of R65 the word lies in. The two round trips and the unknown sets
are its cases; the masks of R63 are a second reading of the same fields. -/

namespace Sys2Proof

/-! ### A word from its class and selector -/

theorem encodeNNN_of_class {w : Word} {c : Nibble} (hc : (fields w).c = c) : encodeNNN c (fields w).nnn = w :=
  hc ▸ encodeNNN_fields w

theorem encodeXNN_of_class {w : Word} {c : Nibble} (hc : (fields w).c = c) :
    encodeXNN c (fields w).x (fields w).nn = w :=
  hc ▸ encodeXNN_fields w

theorem encodeXNN_of_class_byte {w : Word} {c : Nibble} {nn : Byte} (hc : (fields w).c = c) (hnn : (fields w).nn = nn) :
    encodeXNN c (fields w).x nn = w :=
  hnn ▸ encodeXNN_of_class hc

theorem encodeXYN_of_class_nibble {w : Word} {c n : Nibble} (hc : (fields w).c = c) (hn : (fields w).n = n) :
    encodeXYN c (fields w).x (fields w).y n = w :=
  hc ▸ hn ▸ encodeXYN_fields w

/-! ### What decoding answers -/

/-- The words of an unknown set, by the class and selector that put them there (R62, R65). -/
def UnknownSet.Has (w : Word) : UnknownSet → Prop
  | .class0 => (fields w).c = 0x0 ∧ w ≠ 0x00E0#16 ∧ w ≠ 0x00EE#16
  | .class5 => (fields w).c = 0x5 ∧ (fields w).n ≠ 0x0#4
  | .class8 => (fields w).c = 0x8 ∧ (fields w).n ∉ [0x0#4, 0x1#4, 0x2#4, 0x3#4, 0x4#4, 0x5#4, 0x6#4, 0x7#4, 0xE#4]
  | .class9 => (fields w).c = 0x9 ∧ (fields w).n ≠ 0x0#4
  | .classE => (fields w).c = 0xE ∧ (fields w).nn ∉ [0x9E#8, 0xA1#8]
  | .classF => (fields w).c = 0xF ∧
      (fields w).nn ∉ [0x07#8, 0x0A#8, 0x15#8, 0x18#8, 0x1E#8, 0x29#8, 0x33#8, 0x55#8, 0x65#8]

/-- The answer is right for the word: its instruction encodes to the word, or its set has the word. -/
def Decoded.RightFor (w : Word) : Decoded → Prop
  | .instr i   => encode i = w
  | .unknown u => u.Has w
  | .truncated => False

theorem decodeClass0_rightFor {w : Word} (hc : (fields w).c = 0x0) : (decodeClass0 w).RightFor w := by
  unfold decodeClass0
  split_ifs with hcls hret
  · exact hcls.symm
  · exact hret.symm
  · exact ⟨hc, hcls, hret⟩

theorem decodeClass8_rightFor {w : Word} (hc : (fields w).c = 0x8) : (decodeClass8 (fields w)).RightFor w := by
  unfold decodeClass8
  split
  case h_10 => exact ⟨hc, by simp_all⟩
  all_goals exact encodeXYN_of_class_nibble hc ‹_›

theorem decodeClassE_rightFor {w : Word} (hc : (fields w).c = 0xE) : (decodeClassE (fields w)).RightFor w := by
  unfold decodeClassE
  split
  case h_3 => exact ⟨hc, by simp_all⟩
  all_goals exact encodeXNN_of_class_byte hc ‹_›

theorem decodeClassF_rightFor {w : Word} (hc : (fields w).c = 0xF) : (decodeClassF (fields w)).RightFor w := by
  unfold decodeClassF
  split
  case h_10 => exact ⟨hc, by simp_all⟩
  all_goals exact encodeXNN_of_class_byte hc ‹_›

theorem decodeWord_rightFor (w : Word) : (decodeWord w).RightFor w := by
  rcases class_cases (fields w).c with
    hc | hc | hc | hc | hc | hc | hc | hc | hc | hc | hc | hc | hc | hc | hc | hc
  · exact decodeWord_class0 hc ▸ decodeClass0_rightFor hc
  · exact decodeWord_class1 hc ▸ encodeNNN_of_class hc
  · exact decodeWord_class2 hc ▸ encodeNNN_of_class hc
  · exact decodeWord_class3 hc ▸ encodeXNN_of_class hc
  · exact decodeWord_class4 hc ▸ encodeXNN_of_class hc
  · rw [decodeWord_class5 hc]
    split_ifs with hn
    · exact encodeXYN_of_class_nibble hc hn
    · exact ⟨hc, hn⟩
  · exact decodeWord_class6 hc ▸ encodeXNN_of_class hc
  · exact decodeWord_class7 hc ▸ encodeXNN_of_class hc
  · exact decodeWord_class8 hc ▸ decodeClass8_rightFor hc
  · rw [decodeWord_class9 hc]
    split_ifs with hn
    · exact encodeXYN_of_class_nibble hc hn
    · exact ⟨hc, hn⟩
  · exact decodeWord_classA hc ▸ encodeNNN_of_class hc
  · exact decodeWord_classB hc ▸ encodeNNN_of_class hc
  · exact decodeWord_classC hc ▸ encodeXNN_of_class hc
  · exact decodeWord_classD hc ▸ encodeXYN_of_class_nibble hc rfl
  · exact decodeWord_classE hc ▸ decodeClassE_rightFor hc
  · exact decodeWord_classF hc ▸ decodeClassF_rightFor hc

/-! ### Only one answer is right -/

theorem decodeWord_encode (i : Instr) : decodeWord (encode i) = .instr i := by
  cases i
  case cls | ret => rfl
  case jp | call | ldI | jpV0 => simp [encode, decodeWord, fields_encodeNNN]
  case seImm | sneImm | ldImm | addImm | rnd => simp [encode, decodeWord, fields_encodeXNN]
  case seReg | sneReg | drw => simp [encode, decodeWord, fields_encodeXYN]
  case ldReg | orReg | andReg | xorReg | addReg | sub | shr | subn | shl =>
    exact (decodeWord_encodeXYN_class8 _ _ _).trans (by simp [decodeClass8, fields_encodeXYN])
  case skp | sknp => exact (decodeWord_encodeXNN_classE _ _).trans (by simp [decodeClassE, fields_encodeXNN])
  case ldVxDt | ldVxK | ldDtVx | ldStVx | addI | ldF | ldB | stRegs | ldRegs =>
    exact (decodeWord_encodeXNN_classF _ _).trans (by simp [decodeClassF, fields_encodeXNN])

theorem decodeWord_of_has {w : Word} {u : UnknownSet} (h : u.Has w) : decodeWord w = .unknown u := by
  cases u with
  | class0 =>
    obtain ⟨hc, hcls, hret⟩ := h
    rw [decodeWord_class0 hc, decodeClass0, if_neg hcls, if_neg hret]
  | class5 => rw [decodeWord_class5 h.1, if_neg h.2]
  | class9 => rw [decodeWord_class9 h.1, if_neg h.2]
  | class8 =>
    rw [decodeWord_class8 h.1, decodeClass8]
    split
    case h_10 => rfl
    all_goals exact absurd h.2 (by simp [*])
  | classE =>
    rw [decodeWord_classE h.1, decodeClassE]
    split
    case h_3 => rfl
    all_goals exact absurd h.2 (by simp [*])
  | classF =>
    rw [decodeWord_classF h.1, decodeClassF]
    split
    case h_10 => rfl
    all_goals exact absurd h.2 (by simp [*])

theorem decodeWord_eq_iff (w : Word) (d : Decoded) : decodeWord w = d ↔ d.RightFor w := by
  refine ⟨fun h => h ▸ decodeWord_rightFor w, fun h => ?_⟩
  cases d with
  | instr i => exact (congrArg decodeWord h.symm).trans (decodeWord_encode i)
  | unknown u => exact decodeWord_of_has h
  | truncated => exact h.elim

/-- Settles O2: the encoding's fields are the class, the operands and the selector, format by format. -/
theorem decodeOfEncodeIsIdentity : Obligations.DecodeOfEncodeIsIdentity := decodeWord_encode

/-- Settles O3: the decoder's answer is right for the word, whichever class the word has. -/
theorem encodeOfDecodeIsIdentity : Obligations.EncodeOfDecodeIsIdentity :=
  fun w i h => (decodeWord_eq_iff w (.instr i)).mp h

/-! ### The unknown sets as numbers (R65) -/

theorem fields_c_eq_iff (w : Word) (c : Nibble) : (fields w).c = c ↔ w.toNat / 4096 = c.toNat := by
  rw [BitVec.toNat_eq, fields_c_toNat]

theorem fields_n_eq_iff (w : Word) (n : Nibble) : (fields w).n = n ↔ w.toNat % 16 = n.toNat := by
  rw [BitVec.toNat_eq, fields_n_toNat]

theorem fields_nn_eq_iff (w : Word) (nn : Byte) : (fields w).nn = nn ↔ w.toNat % 256 = nn.toNat := by
  rw [BitVec.toNat_eq, fields_nn_toNat]

/-- Settles O5: the sets of `UnknownSet.Has`, with the fields as numbers. -/
theorem unknownWordsAreTheSixSets : Obligations.UnknownWordsAreTheSixSets := by
  intro w
  simp only [decodeWord_eq_iff, Decoded.RightFor, UnknownSet.Has, fields_c_eq_iff, ne_eq]
  refine ⟨Iff.rfl, ?_, ?_, ?_, ?_, ?_, not_false⟩
  case refine_2 => simp [fields_n_eq_iff]; omega
  case refine_1 | refine_3 => simp [fields_n_eq_iff]
  case refine_4 | refine_5 => simp [fields_nn_eq_iff]

/-! ### The masks (R63) -/

theorem and_maskClass_eq_iff {w : Word} {c : Nibble} : w &&& 0xF000 = encodeNNN c 0 ↔ (fields w).c = c := by
  rw [and_maskClass]
  exact ⟨fun h => (encodeNNN_inj h).1, fun h => h ▸ rfl⟩

theorem and_maskClassNibble_eq_iff {w : Word} {c n : Nibble} :
    w &&& 0xF00F = encodeXYN c 0 0 n ↔ (fields w).c = c ∧ (fields w).n = n := by
  rw [and_maskClassNibble]
  refine ⟨fun h => ?_, fun ⟨hc, hn⟩ => hc ▸ hn ▸ rfl⟩
  obtain ⟨hc, -, -, hn⟩ := encodeXYN_inj h
  exact ⟨hc, hn⟩

theorem and_maskClassByte_eq_iff {w : Word} {c : Nibble} {nn : Byte} :
    w &&& 0xF0FF = encodeXNN c 0 nn ↔ (fields w).c = c ∧ (fields w).nn = nn := by
  rw [and_maskClassByte]
  refine ⟨fun h => ?_, fun ⟨hc, hnn⟩ => hc ▸ hnn ▸ rfl⟩
  obtain ⟨hc, -, hnn⟩ := encodeXNN_inj h
  exact ⟨hc, hnn⟩

/-! ### The rows (R63) -/

/-- An encoded word matches its instruction's row: the mask keeps the class and the selector, which the row fixes. -/
theorem encode_and_mask (i : Instr) : encode i &&& i.row.mask = i.row.pattern := by
  cases i
  case cls | ret => rfl
  case jp | call | ldI | jpV0 => exact and_maskClass_eq_iff.mpr (fields_encodeNNN _ _).1
  case seImm | sneImm | ldImm | addImm | rnd => exact and_maskClass_eq_iff.mpr (fields_encodeXNN _ _ _).1
  case drw => exact and_maskClass_eq_iff.mpr (fields_encodeXYN _ _ _ _).1
  case seReg | sneReg | ldReg | orReg | andReg | xorReg | addReg | sub | shr | subn | shl =>
    exact and_maskClassNibble_eq_iff.mpr ((fields_encodeXYN _ _ _ _).imp_right fun h => h.2.2)
  case skp | sknp | ldVxDt | ldVxK | ldDtVx | ldStVx | addI | ldF | ldB | stRegs | ldRegs =>
    exact and_maskClassByte_eq_iff.mpr ((fields_encodeXNN _ _ _).imp_right And.right)

theorem row_mem_opcodeRows (i : Instr) : i.row ∈ opcodeRows := by
  cases i <;> simp [opcodeRows, Instr.row]

/-- The instruction of the same row whose operands are the fields. -/
def Instr.withFields (f : Fields) : Instr → Instr
  | .cls        => .cls
  | .ret        => .ret
  | .jp _       => .jp f.nnn
  | .call _     => .call f.nnn
  | .seImm _ _  => .seImm f.x f.nn
  | .sneImm _ _ => .sneImm f.x f.nn
  | .seReg _ _  => .seReg f.x f.y
  | .ldImm _ _  => .ldImm f.x f.nn
  | .addImm _ _ => .addImm f.x f.nn
  | .ldReg _ _  => .ldReg f.x f.y
  | .orReg _ _  => .orReg f.x f.y
  | .andReg _ _ => .andReg f.x f.y
  | .xorReg _ _ => .xorReg f.x f.y
  | .addReg _ _ => .addReg f.x f.y
  | .sub _ _    => .sub f.x f.y
  | .shr _ _    => .shr f.x f.y
  | .subn _ _   => .subn f.x f.y
  | .shl _ _    => .shl f.x f.y
  | .sneReg _ _ => .sneReg f.x f.y
  | .ldI _      => .ldI f.nnn
  | .jpV0 _     => .jpV0 f.nnn
  | .rnd _ _    => .rnd f.x f.nn
  | .drw _ _ _  => .drw f.x f.y f.n
  | .skp _      => .skp f.x
  | .sknp _     => .sknp f.x
  | .ldVxDt _   => .ldVxDt f.x
  | .ldVxK _    => .ldVxK f.x
  | .ldDtVx _   => .ldDtVx f.x
  | .ldStVx _   => .ldStVx f.x
  | .addI _     => .addI f.x
  | .ldF _      => .ldF f.x
  | .ldB _      => .ldB f.x
  | .stRegs _   => .stRegs f.x
  | .ldRegs _   => .ldRegs f.x

@[simp] theorem row_withFields (i : Instr) (f : Fields) : (i.withFields f).row = i.row := by
  cases i <;> rfl

/-- A word that matches a row encodes the instruction of that row with the word's fields for operands. -/
theorem encode_withFields {w : Word} {i : Instr} (h : w &&& i.row.mask = i.row.pattern) :
    encode (i.withFields (fields w)) = w := by
  cases i
  case cls | ret => exact h.symm.trans (and_maskWord w)
  case jp | call | ldI | jpV0 => exact encodeNNN_of_class (and_maskClass_eq_iff.mp h)
  case seImm | sneImm | ldImm | addImm | rnd => exact encodeXNN_of_class (and_maskClass_eq_iff.mp h)
  case drw => exact encodeXYN_of_class_nibble (and_maskClass_eq_iff.mp h) rfl
  case seReg | sneReg | ldReg | orReg | andReg | xorReg | addReg | sub | shr | subn | shl =>
    exact And.elim encodeXYN_of_class_nibble (and_maskClassNibble_eq_iff.mp h)
  case skp | sknp | ldVxDt | ldVxK | ldDtVx | ldStVx | addI | ldF | ldB | stRegs | ldRegs =>
    exact And.elim encodeXNN_of_class_byte (and_maskClassByte_eq_iff.mp h)

/-- A word that matches a row decodes to an instruction of that row. -/
theorem exists_decodeWord_of_and_mask {w : Word} {r : Row} (hr : r ∈ opcodeRows) (h : w &&& r.mask = r.pattern) :
    ∃ i, decodeWord w = .instr i ∧ i.row = r := by
  obtain ⟨i, -, rfl⟩ := List.mem_map.mp hr
  exact ⟨i.withFields (fields w), (decodeWord_eq_iff w (.instr _)).mpr (encode_withFields h), row_withFields i _⟩

/-- Settles O4: decoding has one answer, so a word that matches two rows decodes to one instruction of both. -/
theorem decodeSelectsByMaskAndMatch : Obligations.DecodeSelectsByMaskAndMatch := by
  refine ⟨rfl, fun w i h => ⟨row_mem_opcodeRows i, ?_⟩, fun w r hr h => exists_decodeWord_of_and_mask hr h, ?_⟩
  · obtain rfl : encode i = w := encodeOfDecodeIsIdentity w i h
    exact encode_and_mask i
  · intro w r r' hr hr' h h'
    obtain ⟨i, hi, rfl⟩ := exists_decodeWord_of_and_mask hr h
    obtain ⟨j, hj, rfl⟩ := exists_decodeWord_of_and_mask hr' h'
    obtain rfl : i = j := Decoded.instr.inj (hi.symm.trans hj)
    rfl

/-! ### The fields as bit ranges (R58), and written-out words -/

theorem wordOfBytes_toNat (hi lo : Byte) : (wordOfBytes hi lo).toNat = hi.toNat * 256 + lo.toNat :=
  toNat_append_add hi lo

/-- Settles O1: each field is a quotient or remainder of the word, and the word is its high byte times 256 plus its low
byte (R47). -/
theorem fieldsAreBitRanges : Obligations.FieldsAreBitRanges := by
  refine ⟨fun w => ?_, fun b0 b1 => ?_⟩
  · refine ⟨fields_c_toNat w, fields_x_val w, fields_y_val w, fields_n_toNat w, fields_nn_toNat w,
      fields_nnn_toNat w, ?_⟩
    rw [fields_x_val, fields_y_val, fields_n_toNat, fields_nn_toNat, fields_nnn_toNat]
    omega
  · have hb0 := b0.isLt
    have hb1 := b1.isLt
    simp only [BitVec.toNat_eq, fields_c_toNat, fields_x_val, fields_y_val, fields_n_toNat, fields_nn_toNat,
      fields_nnn_toNat, wordOfBytes_toNat]
    omega

/-- Settles O6: the decoder runs on each of the eleven words. -/
theorem writtenOutWordsDecode : Obligations.WrittenOutWordsDecode := by
  unfold Obligations.WrittenOutWordsDecode
  decide

end Sys2Proof
end

section
/-! PROOFS. The step around the decoder (30_encoding.md R64, R66, R67): it runs the decoded instruction, treats an
unknown word as a no-op, and always answers a next state. -/

namespace Sys2Proof.Machine

/-! ### A running tick -/

/-- Settles O7: a pending tick and the model's own tick with free inputs both fetch and run the word at PC. -/
theorem stepRunsDecodedInstruction : Obligations.StepRunsDecodedInstruction := by
  intro s i hrun hpc hdec
  refine ⟨fun k r es hev => step_of_instr hrun hev hpc hdec, fun hev => ?_⟩
  let k := Config.freeKeys s.draws
  let r := Config.freeByte s.draws
  let t : State := { s with draws := s.draws + 1 }
  calc step s = instrTick k r t := step_of_no_event hev
    _ = runInstr k r t := instrTick_running k r hrun
    _ = exec i (t.fetched k r) := runInstr_instr k r hpc hdec

theorem step_of_unknown {s : State} {k : Keys} {r : Byte} {es : List Event} {u : UnknownSet} (hrun : s.run = .running)
    (hev : s.events = .instrTick k r :: es) (hpc : s.pc.toNat + 2 ≤ 0xFFF)
    (hdec : decodeWord (s.wordAt s.pc.toNat) = .unknown u) : step s = .next ((s.withEvents es).fetched k r) :=
  calc step s = instrTick k r (s.withEvents es) := step_of_event hev
    _ = runInstr k r (s.withEvents es) := instrTick_running k r hrun
    _ = .next ((s.withEvents es).fetched k r) := runInstr_unknown k r hpc hdec

theorem frame_fetched (s : State) (k : Keys) (r : Byte) :
    Frame [.pc, .ir] { s with key := k, rnd := r } (s.fetched k r) := by
  simp [Frame, State.getV, State.readByte]

/-- Settles O8: the no-op leaves the state as the fetch made it. -/
theorem unknownWordOnlyAdvancesPc : Obligations.UnknownWordOnlyAdvancesPc :=
  fun s _ k r es hrun hpc hev hdec =>
    ⟨_, step_of_unknown hrun hev hpc hdec, pc_add_two_toNat s.pc hpc, rfl, frame_fetched (s.withEvents es) k r⟩

/-! ### Every event answers a next state -/

theorem exec_answers_next (i : Instr) (s : State) : ∃ t, exec i s = .next t := by
  cases i <;> exact ⟨_, rfl⟩

theorem runInstr_answers_next (k : Keys) (r : Byte) (s : State) : ∃ t, runInstr k r s = .next t := by
  rcases runInstr_cases k r s with ⟨-, heq⟩ | ⟨-, i, -, heq⟩ | ⟨-, -, -, heq⟩
  · exact ⟨_, heq⟩
  · exact heq ▸ exec_answers_next i _
  · exact ⟨_, heq⟩

theorem instrTick_answers_next (k : Keys) (r : Byte) (s : State) : ∃ t, instrTick k r s = .next t := by
  cases hrun : s.run with
  | halted => exact ⟨_, instrTick_halted k r hrun⟩
  | waitingForKey x => exact ⟨_, instrTick_waiting k r hrun⟩
  | running => exact instrTick_running k r hrun ▸ runInstr_answers_next k r s

theorem perform_answers_next (e : Event) (s : State) : ∃ t, perform e s = .next t := by
  cases e with
  | instrTick k r => exact instrTick_answers_next k r s
  | timerTick | reset => exact ⟨_, rfl⟩

/-- Settles O19: every meaning ends in a next state, so every event does. -/
theorem everyStepAnswersNext : Obligations.EveryStepAnswersNext := by
  intro s
  obtain ⟨e, es, d, heq⟩ := step_cases s
  exact heq ▸ perform_answers_next e _

end Sys2Proof.Machine
end

section
/-! PROOFS. Control transfer (40_control_flow.md R73 to R82): the jumps, the call stack, the register and immediate
skips. -/

namespace Sys2Proof.Machine

/-! ### The jumps -/

/-- Settles O20: the word is the encoding of `1NNN`, and the meaning is one write of PC. -/
theorem jumpLoadsPc : Obligations.JumpLoadsPc :=
  fun nnn => ⟨decodeWord_encode (.jp nnn), fun s => ⟨_, exec_jp nnn s, zextAddr_toNat nnn, frame_setPc s _⟩⟩

theorem exec_jpV0_inside {nnn : Addr12} {s : State} (h : s.indexedTarget nnn ≤ 0xFFF) :
    exec (.jpV0 nnn) s = .next (s.setPc (BitVec.ofNat 16 (s.indexedTarget nnn))) := by
  rw [exec_jpV0, if_neg (by omega)]

theorem exec_jpV0_outside {nnn : Addr12} {s : State} (h : s.indexedTarget nnn > 0xFFF) :
    exec (.jpV0 nnn) s = .next (s.raise .memoryOutOfBounds (s.indexedTarget nnn)) := by
  rw [exec_jpV0, if_pos h]

/-- Settles O25: a target inside MEM is below 65536, so PC holds the whole sum. -/
theorem indexedJumpIsChecked : Obligations.IndexedJumpIsChecked := by
  intro nnn s
  refine ⟨fun h => ⟨_, exec_jpV0_inside h, ?_, frame_setPc s _⟩, fun h => ⟨_, exec_jpV0_outside h, raise_halts s _ _⟩⟩
  rw [setPc_pc, BitVec.toNat_ofNat]
  exact Nat.mod_eq_of_lt (show s.indexedTarget nnn < 2 ^ 16 from Nat.lt_of_le_of_lt h (by decide))

/-! ### The call stack -/

theorem frame_pushAndJump (w : Word) {s : State} (h : s.sp.val < 16) :
    Frame [.pc, .sp, .stack] s (s.pushAndJump w) := by
  rw [pushAndJump_room w s h]
  simp [Frame, State.getV, State.readByte]

theorem frame_popAndJump {s : State} (h : 0 < s.sp.val) : Frame [.pc, .sp] s s.popAndJump := by
  rw [popAndJump_some s h]
  simp [Frame, State.getV, State.readByte]

/-- A pop that finds the stack and SP as a push left them restores the PC and the SP of before the push. -/
theorem popAndJump_of_pushed {w : Word} {s t : State} (h : s.sp.val < 16) (hstack : t.stack = (s.pushAndJump w).stack)
    (hsp : t.sp = (s.pushAndJump w).sp) : t.popAndJump = { t with sp := s.sp, pc := s.pc } := by
  rw [pushAndJump_room w s h] at hstack hsp
  rw [popAndJump_some t (by simp [hsp])]
  simp [hstack, hsp]

/-- Settles O23: the one slot `00EE` reads is the one `2NNN` wrote. -/
theorem returnAfterCallRestoresPc : Obligations.ReturnAfterCallRestoresPc := by
  intro nnn s h
  refine ⟨_, exec_call nnn s, fun t hstack hsp => ⟨_, exec_ret t, ?_⟩⟩
  rw [popAndJump_of_pushed h hstack hsp]
  exact ⟨rfl, rfl, rfl⟩

/-- Settles O21: with room the push writes slot SP alone, and a full stack halts before the push. -/
theorem callPushesReturnAddress : Obligations.CallPushesReturnAddress := by
  intro nnn s
  refine ⟨fun h => ⟨_, exec_call nnn s, ?_⟩, fun h => ⟨_, exec_call nnn s, ?_⟩⟩
  · have hframe := frame_pushAndJump (zextAddr nnn) h
    rw [pushAndJump_room (zextAddr nnn) s h] at hframe ⊢
    exact ⟨Vector.getElem_set_self _, rfl, zextAddr_toNat nnn, fun k hk => Vector.getElem_set_ne h k.isLt hk.symm, hframe⟩
  · rw [pushAndJump_full (zextAddr nnn) s h]
    exact raise_halts s _ _

/-- Settles O22: a pop reads the slot below SP and writes no slot, and an empty stack halts before the pop. -/
theorem returnPopsIntoPc : Obligations.ReturnPopsIntoPc := by
  intro s
  refine ⟨fun h => ⟨_, exec_ret s, ?_⟩, fun h => ⟨_, exec_ret s, ?_⟩⟩
  · have hframe := frame_popAndJump h
    rw [popAndJump_some s h] at hframe ⊢
    exact ⟨rfl, rfl, hframe⟩
  · rw [popAndJump_empty s h]
    exact raise_halts s _ _

/-! ### The skips -/

/-- Each register and immediate skip is `skipIf` of its condition. -/
theorem exec_skip {x y : Reg} {nn : Byte} {s : State} {i : Instr} {cond : Prop}
    (hi : (i = .seImm x nn ∧ (cond ↔ s.getV x = nn)) ∨ (i = .sneImm x nn ∧ (cond ↔ s.getV x ≠ nn)) ∨
      (i = .seReg x y ∧ (cond ↔ s.getV x = s.getV y)) ∨ (i = .sneReg x y ∧ (cond ↔ s.getV x ≠ s.getV y))) :
    ∃ taken : Bool, exec i s = .next (s.skipIf taken) ∧ (cond ↔ taken = true) := by
  rcases hi with ⟨rfl, hcond⟩ | ⟨rfl, hcond⟩ | ⟨rfl, hcond⟩ | ⟨rfl, hcond⟩
  · exact ⟨_, exec_seImm x nn s, hcond.trans decide_eq_true_iff.symm⟩
  · exact ⟨_, exec_sneImm x nn s, hcond.trans decide_eq_true_iff.symm⟩
  · exact ⟨_, exec_seReg x y s, hcond.trans decide_eq_true_iff.symm⟩
  · exact ⟨_, exec_sneReg x y s, hcond.trans decide_eq_true_iff.symm⟩

theorem skipIf_false (s : State) : s.skipIf false = s := rfl

theorem skipIf_true (s : State) : s.skipIf true = s.advancePC := rfl

/-- Settles O24: a skip that is taken is the checked advance, one that is not taken is nothing at all. -/
theorem skipsAdvanceExactlyOneInstruction : Obligations.SkipsAdvanceExactlyOneInstruction := by
  intro x y nn s i cond hi
  obtain ⟨taken, hexec, hcond⟩ := exec_skip hi
  refine ⟨_, hexec, fun hc hpc => ?_, fun hc hpc => ?_, fun hc => ?_⟩
  · rw [hcond.mp hc, skipIf_true, advancePC_ok s hpc]
    exact ⟨pc_add_two_toNat s.pc hpc, frame_setPc s _⟩
  · rw [hcond.mp hc, skipIf_true, advancePC_raise s hpc]
    exact raise_halts s _ _
  · rw [Bool.eq_false_iff.mpr (mt hcond.mpr hc), skipIf_false]
    exact Frame.refl [] s

end Sys2Proof.Machine
end

section
/-! PROOFS. Load, arithmetic, logic, shift and random (41_load_alu.md R83 to R95). Each meaning is one write of VX, or a
write of VX with the flag written last, so a statement is its equation (`exec_ldImm`, ...), what the written register
reads as, and the two frames. -/

namespace Sys2Proof.Machine

/-! ### What the written registers read as -/

theorem setV_getV_self (s : State) (r : Reg) (b : Byte) : (s.setV r b).getV r = b := by simp

/-- The flag is in VF whatever the destination (R83, decision D9). -/
theorem setVFlag_getV_VF (s : State) (r : Reg) (b f : Byte) : (s.setVFlag r b f).getV VF = f := by simp

theorem setVFlag_getV_self {r : Reg} (hr : r ≠ VF) (s : State) (b f : Byte) : (s.setVFlag r b f).getV r = b := by
  simp [hr]

theorem setV_keeps_rest (s : State) (r : Reg) (b : Byte) : KeepsV [r] s (s.setV r b) ∧ Frame [.v] s (s.setV r b) :=
  ⟨keepsV_setV s r b, frame_setV s r b⟩

theorem setVFlag_keeps_rest (s : State) (r : Reg) (b f : Byte) :
    KeepsV [r, VF] s (s.setVFlag r b f) ∧ Frame [.v] s (s.setVFlag r b f) :=
  ⟨keepsV_setVFlag s r b f, frame_setVFlag s r b f⟩

/-! ### Results and flags as numbers -/

theorem carryFlag_toNat (a b : Byte) : (carryFlag a b).toNat = if a.toNat + b.toNat > 255 then 1 else 0 := by
  simp only [carryFlag, flagByte_toNat, decide_eq_true_eq]

theorem noBorrowFlag_toNat (a b : Byte) : (noBorrowFlag a b).toNat = if b.toNat > a.toNat then 0 else 1 := by
  simp only [noBorrowFlag, flagByte_toNat, Bool.not_eq_true', decide_eq_false_iff_not, ite_not]

/-- The byte difference is the integer difference modulo 256. -/
theorem sub_toNat_int (a b : Byte) : ((a - b).toNat : Int) = (a.toNat - b.toNat : Int) % 256 := by
  have hb := b.isLt
  rw [BitVec.toNat_sub]
  omega

theorem ushiftRight_one_toNat (a : Byte) : (a >>> 1).toNat = a.toNat / 2 := by
  rw [BitVec.toNat_ushiftRight, Nat.shiftRight_eq_div_pow, Nat.pow_one]

theorem shiftLeft_one_toNat (a : Byte) : (a <<< 1).toNat = a.toNat * 2 % 256 := by
  rw [BitVec.toNat_shiftLeft, Nat.shiftLeft_eq, Nat.pow_one]

/-! ### Loads and the immediate sum -/

/-- Settles O26: the word is the encoding of `6XNN`, and the meaning is one write of VX. -/
theorem loadImmediateWritesVx : Obligations.LoadImmediateWritesVx :=
  fun x nn => ⟨decodeWord_encode (.ldImm x nn), fun s =>
    ⟨_, exec_ldImm x nn s, setV_getV_self s x nn, setV_keeps_rest s x nn⟩⟩

/-- Settles O27: the byte sum is the sum modulo 256, and VX is the only register written. -/
theorem addImmediateWrapsWithoutFlag : Obligations.AddImmediateWrapsWithoutFlag := by
  refine fun x nn => ⟨decodeWord_encode (.addImm x nn), fun s => ⟨_, exec_addImm x nn s, ?_, setV_keeps_rest s x _⟩⟩
  rw [setV_getV_self, BitVec.toNat_add]

/-- Settles O28: the word is the encoding of `8XY0`, and the meaning is one write of VX with the old VY. -/
theorem loadRegisterCopiesVy : Obligations.LoadRegisterCopiesVy :=
  fun x y => ⟨decodeWord_encode (.ldReg x y), fun s =>
    ⟨_, exec_ldReg x y s, setV_getV_self s x _, setV_keeps_rest s x _⟩⟩

/-! ### Logic and the random byte -/

/-- Settles O29: bit by bit, the byte operations are the Boolean ones. -/
theorem logicIsBitwiseIntoVx : Obligations.LogicIsBitwiseIntoVx := by
  intro x y s
  refine ⟨⟨_, exec_orReg x y s, fun k => ?_, setV_keeps_rest s x _⟩,
    ⟨_, exec_andReg x y s, fun k => ?_, setV_keeps_rest s x _⟩,
    ⟨_, exec_xorReg x y s, fun k => ?_, setV_keeps_rest s x _⟩⟩
  · rw [setV_getV_self, BitVec.getLsbD_or]
  · rw [setV_getV_self, BitVec.getLsbD_and]
  · rw [setV_getV_self, BitVec.getLsbD_xor]

/-- Settles O33: VX is the held byte AND NN, and `NN AND NOT NN` is 0. -/
theorem randomIsMaskedByNn : Obligations.RandomIsMaskedByNn := by
  intro x nn s
  refine ⟨_, exec_rnd x nn s, fun k => ?_, ?_, setV_keeps_rest s x _⟩
  · rw [setV_getV_self, BitVec.getLsbD_and]
  · rw [setV_getV_self, BitVec.and_assoc, BitVec.and_not_self]
    exact BitVec.and_zero

/-! ### The flag-writing instructions -/

/-- Settles O30: the carry reaches VF for every X, and the sum stays in VX when VX is not VF. -/
theorem addRegisterSetsCarry : Obligations.AddRegisterSetsCarry := by
  intro x y s
  refine ⟨_, exec_addReg x y s, ?_, fun hx => ?_, setVFlag_keeps_rest s x _ _⟩
  · rw [setVFlag_getV_VF, carryFlag_toNat]
  · rw [setVFlag_getV_self hx, BitVec.toNat_add]

/-- A difference written to VX with its no-borrow flag, as both subtractions write it. -/
theorem setVFlag_difference (s : State) (x : Reg) (a b : Byte) :
    ((s.setVFlag x (a - b) (noBorrowFlag a b)).getV VF).toNat = (if b.toNat > a.toNat then 0 else 1) ∧
    (x ≠ VF → (((s.setVFlag x (a - b) (noBorrowFlag a b)).getV x).toNat : Int) = (a.toNat - b.toNat : Int) % 256) ∧
    KeepsV [x, VF] s (s.setVFlag x (a - b) (noBorrowFlag a b)) ∧
    Frame [.v] s (s.setVFlag x (a - b) (noBorrowFlag a b)) := by
  refine ⟨?_, fun hx => ?_, setVFlag_keeps_rest s x _ _⟩
  · rw [setVFlag_getV_VF, noBorrowFlag_toNat]
  · rw [setVFlag_getV_self hx, sub_toNat_int]

/-- Settles O31: `8XY7` is `8XY5` with the operands of the difference exchanged. -/
theorem subtractionsSetNoBorrow : Obligations.SubtractionsSetNoBorrow :=
  fun x y s => ⟨⟨_, exec_sub x y s, setVFlag_difference s x _ _⟩, ⟨_, exec_subn x y s, setVFlag_difference s x _ _⟩⟩

/-- Settles O32: bit 0 is the remainder by 2 and bit 7 the quotient by 128; no clause reads Y. -/
theorem shiftsPutBitShiftedOutIntoVf : Obligations.ShiftsPutBitShiftedOutIntoVf := by
  intro x y s
  refine ⟨⟨_, exec_shr x y s, ?_, fun hx => ?_, setVFlag_keeps_rest s x _ _⟩,
    ⟨_, exec_shl x y s, ?_, fun hx => ?_, setVFlag_keeps_rest s x _ _⟩⟩
  · rw [setVFlag_getV_VF, shiftRightFlag_toNat]
  · rw [setVFlag_getV_self hx, ushiftRight_one_toNat]
  · rw [setVFlag_getV_VF, shiftLeftFlag_toNat]
  · rw [setVFlag_getV_self hx, shiftLeft_one_toNat]

end Sys2Proof.Machine
end

section
/-! PROOFS. Index register and memory transfer (42_index_memory.md R98 to R104). A transfer of `k + 1` bytes at I happens
or halts by its last address `I + k` alone, so each of the three transfers is its range check, what the bytes or registers
moved read as, and what is kept. -/

namespace Sys2Proof.Machine

/-! ### Writing I -/

theorem indexSum_toNat (s : State) (x : Reg) : (s.indexSum x).toNat = (s.i.toNat + (s.getV x).toNat) % 65536 := by
  have hv := (s.getV x).isLt
  simp only [State.indexSum, BitVec.toNat_add, BitVec.truncate_eq_setWidth, BitVec.toNat_setWidth]
  omega

theorem glyphAddr_toNat (b : Byte) : (glyphAddr b).toNat = 0x050 + 5 * b.toNat := by
  have hb := b.isLt
  rw [glyphAddr, BitVec.toNat_ofNat]
  omega

/-- Settles O34: the word is the encoding of `ANNN`, and the meaning is one write of I. -/
theorem loadIndexWritesI : Obligations.LoadIndexWritesI :=
  fun nnn => ⟨decodeWord_encode (.ldI nnn), fun s => ⟨_, exec_ldI nnn s, zextAddr_toNat nnn, frame_setI s _⟩⟩

/-- Settles O35: the 16-bit sum is the sum modulo 65536, and I is the only component written. -/
theorem addToIndexWrapsAtSixteenBits : Obligations.AddToIndexWrapsAtSixteenBits :=
  fun x => ⟨decodeWord_encode (.addI x), fun s => ⟨_, exec_addI x s, indexSum_toNat s x, frame_setI s _⟩⟩

/-- Settles O36: the address of the glyph of the largest VX is still below 65536, so I holds it whole. -/
theorem loadFontAddressUsesWholeVx : Obligations.LoadFontAddressUsesWholeVx :=
  fun x => ⟨decodeWord_encode (.ldF x), fun s => ⟨_, exec_ldF x s, glyphAddr_toNat _, frame_setI s _⟩⟩

/-! ### The range of a transfer at I (20_memory.md R46) -/

theorem checkRange_effAddr_inside {s : State} {k : Nat} (h : s.effAddr k ≤ 0xFFF) (ok : State) :
    s.checkRange (s.effAddr 0) (k + 1) ok = ok :=
  checkRange_ok s ok (.inr h)

theorem checkRange_effAddr_halts {s : State} {k : Nat} (h : s.effAddr k > 0xFFF) (ok : State) :
    Halts .memoryOutOfBounds (s.effAddr k) s (s.checkRange (s.effAddr 0) (k + 1) ok) := by
  have hraise : s.checkRange (s.effAddr 0) (k + 1) ok = s.raise .memoryOutOfBounds (s.effAddr k) :=
    checkRange_raise s ok (Nat.succ_ne_zero k) h
  rw [hraise]
  exact raise_halts s _ _

/-! ### Bytes stored at I -/

section
variable {s : State} {bs : List Byte} {k : Nat}

/-- The block of `k + 1` bytes whose last address lies inside MEM ends by `0x1000`. -/
theorem effAddr_block_bound (h : s.effAddr k ≤ 0xFFF) (hlen : bs.length = k + 1) :
    s.effAddr 0 + bs.length ≤ 0x1000 := by
  simp only [State.effAddr] at h ⊢
  omega

theorem stored_readByte (hwf : Memory.wf s.mem = true) (h : s.effAddr k ≤ 0xFFF) (hlen : bs.length = k + 1) {j : Nat}
    (hj : j < bs.length) :
    (s.setMem (Memory.writeBytes s.mem (s.effAddr 0) bs)).readByte (s.effAddr j) = bs[j] :=
  Memory.read_writeBytes_inside (effAddr_block_bound h hlen) hwf hj

theorem stored_keepsMem (hwf : Memory.wf s.mem = true) (h : s.effAddr k ≤ 0xFFF) (hlen : bs.length = k + 1) :
    KeepsMem (s.effAddr 0) (k + 1) s (s.setMem (Memory.writeBytes s.mem (s.effAddr 0) bs)) := by
  intro b hb
  rw [← hlen] at hb
  exact Memory.read_writeBytes_outside (effAddr_block_bound h hlen) hwf hb

end

/-! ### The decimal digits -/

@[simp] theorem bcdDigits_length (b : Byte) : (bcdDigits b).length = 3 := rfl

/-- Every decimal digit fits in its byte. -/
theorem bcdDigits_toNat (b : Byte) :
    ((bcdDigits b)[0]'(by simp)).toNat = b.toNat / 100 ∧ ((bcdDigits b)[1]'(by simp)).toNat = b.toNat / 10 % 10 ∧
    ((bcdDigits b)[2]'(by simp)).toNat = b.toNat % 10 := by
  have hb := b.isLt
  exact ⟨Nat.mod_eq_of_lt (by omega), Nat.mod_eq_of_lt (by omega), Nat.mod_eq_of_lt (by omega)⟩

/-- Settles O37: each digit is read back from where it was stored, in a range checked by its last address. -/
theorem bcdStoresThreeDigits : Obligations.BcdStoresThreeDigits := by
  intro x s hwf
  refine ⟨fun h => ⟨_, exec_ldB x s, ?_⟩, fun h => ⟨_, exec_ldB x s, checkRange_effAddr_halts h _⟩⟩
  have hlen := bcdDigits_length (s.getV x)
  obtain ⟨hhundreds, htens, hones⟩ := bcdDigits_toNat (s.getV x)
  have hstored (j : Nat) (hj : j < 3) := stored_readByte hwf h hlen (hlen.symm ▸ hj)
  rw [checkRange_effAddr_inside h, hstored 0 (by decide), hstored 1 (by decide), hstored 2 (by decide)]
  exact ⟨hhundreds, htens, hones, stored_keepsMem hwf h hlen, frame_setMem s _⟩

/-! ### Register blocks -/

/-- Settles O38: inside MEM the state is `storeRegs`, whose bytes are the registers. -/
theorem storeRegistersWritesV0ThroughVx : Obligations.StoreRegistersWritesV0ThroughVx := by
  intro x s hwf
  refine ⟨fun h => ⟨_, exec_stRegs_inside h, fun r hr => storeRegs_readByte hwf h hr, ?_, frame_setMem s _⟩,
    fun h => ⟨_, exec_stRegs x s, checkRange_effAddr_halts h _⟩⟩
  exact stored_keepsMem hwf h (regsThrough_length s x)

/-- The state after V0..VX are loaded from I (R104). -/
def State.loadRegs (x : Reg) (s : State) : State := s.setAllV (s.regsLoaded (s.effAddr 0) x)

theorem exec_ldRegs_inside {s : State} {x : Reg} (h : s.effAddr x.val ≤ 0xFFF) :
    exec (.ldRegs x) s = .next (s.loadRegs x) := by
  rw [exec_ldRegs, checkRange_effAddr_inside h, State.loadRegs]

theorem loadRegs_getV (x r : Reg) (s : State) :
    (s.loadRegs x).getV r = if r.val ≤ x.val then s.readByte (s.effAddr r.val) else s.getV r :=
  regsLoaded_getElem s (s.effAddr 0) x r

/-- Settles O39: inside MEM the state is `loadRegs`, whose registers up to VX are the bytes. -/
theorem loadRegistersReadsV0ThroughVx : Obligations.LoadRegistersReadsV0ThroughVx := by
  intro x s
  refine ⟨fun h => ⟨_, exec_ldRegs_inside h, fun r hr => ?_, fun r hr => ?_, frame_setAllV s _⟩,
    fun h => ⟨_, exec_ldRegs x s, checkRange_effAddr_halts h _⟩⟩
  · rw [loadRegs_getV, if_pos hr]
  · rw [loadRegs_getV, if_neg (Nat.not_le.mpr hr)]

/-- Settles O40: the load finds I and memory as the store left them, so it reads the bytes that are V0..VX. -/
theorem storeThenLoadRestoresRegisters : Obligations.StoreThenLoadRestoresRegisters := by
  intro x s hwf h
  refine ⟨_, exec_stRegs_inside h, rfl, fun t hmem hi => ?_⟩
  have haddr (k : Nat) : t.effAddr k = s.effAddr k := by rw [State.effAddr, hi]; rfl
  have hbyte (a : Nat) : t.readByte a = (s.storeRegs x).readByte a := by rw [State.readByte, hmem]; rfl
  refine ⟨_, exec_ldRegs_inside (haddr x.val ▸ h), hi, fun r hr => ?_⟩
  rw [loadRegs_getV, if_pos hr, haddr, hbyte]
  exact storeRegs_readByte hwf h hr

end Sys2Proof.Machine
end

section
/-! PROOFS. The display (43_display.md R107 to R113). A `DXYN` whose sprite lies in MEM answers one state, `draw`, and a
pixel and the flag of it are those of the parallel form (R112). A second draw is the same two facts read twice. -/

namespace Sys2Proof.Machine

/-! ### Clearing -/

/-- Settles O42: the word is the encoding of `00E0`, and the meaning is one write of the framebuffer. -/
theorem clearTurnsEveryPixelOff : Obligations.ClearTurnsEveryPixelOff :=
  ⟨decodeWord_encode .cls, fun s => ⟨_, exec_cls s, Framebuffer.pixel_clear, frame_setFb s _⟩⟩

/-! ### The state after a draw -/

/-- The state after the sprite of `n` rows at I is drawn at (VX, VY), VF written last (R108). -/
def State.draw (x y : Reg) (n : Nibble) (s : State) : State :=
  (s.setFb (s.blit x y n.toNat).fb).setV VF (collisionFlag (s.blit x y n.toNat).collision)

theorem exec_drw_inside {x y : Reg} {n : Nibble} {s : State} (h : n = 0 ∨ s.effAddr (n.toNat - 1) ≤ 0xFFF) :
    exec (.drw x y n) s = .next (s.draw x y n) := by
  have hin : n.toNat = 0 ∨ s.effAddr 0 + n.toNat - 1 ≤ 0xFFF := by
    refine h.imp (fun hn => congrArg BitVec.toNat hn) fun hlast => ?_
    simp only [State.effAddr] at hlast ⊢
    omega
  rw [exec_drw, checkRange_ok _ _ hin, State.draw]

/-- A sprite of at least one row whose last byte lies past MEM halts the core at that byte (decision D28). -/
theorem exec_drw_outside {n : Nibble} {s : State} (x y : Reg) (hn : n ≠ 0) (h : s.effAddr (n.toNat - 1) > 0xFFF) :
    ∃ t, exec (.drw x y n) s = .next t ∧ Halts .memoryOutOfBounds (s.effAddr (n.toNat - 1)) s t := by
  have hrows : n.toNat - 1 + 1 = n.toNat :=
    Nat.succ_pred_eq_of_ne_zero fun hzero => hn (BitVec.eq_of_toNat_eq hzero)
  have hhalts := checkRange_effAddr_halts h (s.draw x y n)
  rw [hrows] at hhalts
  exact ⟨_, exec_drw x y n s, hhalts⟩

/-- At most 15 rows are drawn, so no two of them fall on one framebuffer row (R112). -/
theorem sprite_rows_fit (s : State) (n : Nibble) :
    0 + (Memory.readBytes s.mem (s.effAddr 0) n.toNat).length ≤ 32 := by
  have hn := n.isLt
  rw [Memory.readBytes_length]
  omega

/-! ### Pixels, flag and frame of a draw -/

/-- A draw turns over the pixels the sprite hits, each by its old value. -/
theorem draw_pixel (x y : Reg) (n : Nibble) (s : State) (px : Fin 64) (py : Fin 32) :
    Framebuffer.pixel (s.draw x y n).fb px py = true ↔
      ¬ (Framebuffer.pixel s.fb px py = true ↔ SpriteHits s x y n px py) := by
  rw [← SpriteBitAt_iff_hits]
  exact drawRows_pixel _ _ 0 _ (sprite_rows_fit s n) ⟨s.fb, false⟩ px py

/-- The blitter, started with no collision recorded, records one exactly where a 1 bit meets a lit pixel. -/
theorem blit_collision (x y : Reg) (n : Nibble) (s : State) :
    (s.blit x y n.toNat).collision = true ↔
      ∃ px py, SpriteHits s x y n px py ∧ Framebuffer.pixel s.fb px py = true := by
  simp only [← SpriteBitAt_iff_hits]
  exact (drawRows_collision _ _ 0 _ (sprite_rows_fit s n) ⟨s.fb, false⟩).trans (or_iff_right Bool.false_ne_true)

/-- The flag is written last, whatever the operands are (decision D9). -/
theorem draw_getV_VF (x y : Reg) (n : Nibble) (s : State) :
    ((s.draw x y n).getV VF).toNat = if (s.blit x y n.toNat).collision then 1 else 0 := by
  rw [State.draw, setV_getV_self, collisionFlag, flagByte_toNat]

theorem draw_flag_zero_or_one (x y : Reg) (n : Nibble) (s : State) :
    ((s.draw x y n).getV VF).toNat = 1 ∨ ((s.draw x y n).getV VF).toNat = 0 := by
  rw [draw_getV_VF]
  exact ite_eq_or_eq _ 1 0

theorem draw_flag_eq_one_iff (x y : Reg) (n : Nibble) (s : State) :
    ((s.draw x y n).getV VF).toNat = 1 ↔
      ∃ px py, SpriteHits s x y n px py ∧ Framebuffer.pixel s.fb px py = true := by
  rw [draw_getV_VF, ← blit_collision]
  simp

theorem keepsV_draw (x y : Reg) (n : Nibble) (s : State) : KeepsV [VF] s (s.draw x y n) :=
  keepsV_setV (s.setFb _) VF _

theorem frame_draw (x y : Reg) (n : Nibble) (s : State) : Frame [.v, .fb] s (s.draw x y n) := by
  simp [State.draw, Frame]

/-- Settles O43: a draw inside MEM is `draw`, and past it the range check halts before the first pixel. -/
theorem drawXorsSpriteAndReportsCollision : Obligations.DrawXorsSpriteAndReportsCollision := by
  intro x y n s
  refine ⟨fun h => ⟨_, exec_drw_inside h, ?_⟩, fun ⟨hn, h⟩ => exec_drw_outside x y hn h⟩
  exact ⟨draw_pixel x y n s, draw_flag_zero_or_one x y n s, draw_flag_eq_one_iff x y n s, keepsV_draw x y n s,
    frame_draw x y n s⟩

/-! ### Drawing twice -/

/-- What a sprite hits depends on memory, I, VX and VY alone. -/
theorem spriteHits_congr {x y : Reg} {s t : State} (hmem : t.mem = s.mem) (hi : t.i = s.i) (hx : t.getV x = s.getV x)
    (hy : t.getV y = s.getV y) (n : Nibble) (px : Fin 64) (py : Fin 32) :
    SpriteHits t x y n px py ↔ SpriteHits s x y n px py := by
  simp only [SpriteHits, State.effAddr, State.readByte, hmem, hi, hx, hy]

/-- A pixel turned over twice, or not at all, is as before. -/
theorem pixel_of_drawn_twice {x y : Reg} {n : Nibble} {s t : State} (hfb : t.fb = (s.draw x y n).fb) {px : Fin 64}
    {py : Fin 32} (hhits : SpriteHits t x y n px py ↔ SpriteHits s x y n px py) :
    Framebuffer.pixel (t.draw x y n).fb px py = Framebuffer.pixel s.fb px py := by
  rw [Bool.eq_iff_iff, draw_pixel, hfb, draw_pixel, hhits]
  tauto

/-- Where the sprite hits, a pixel is lit after the draw exactly if it was off before. -/
theorem pixel_drawn_of_hit {x y : Reg} {n : Nibble} {s : State} {px : Fin 64} {py : Fin 32}
    (hhit : SpriteHits s x y n px py) :
    Framebuffer.pixel (s.draw x y n).fb px py = true ↔ Framebuffer.pixel s.fb px py = false := by
  rw [draw_pixel, iff_true_right hhit, Bool.not_eq_true]

/-- Settles O44: the second draw hits the same pixels, and finds those lit that the first one turned on. -/
theorem drawTwiceRestoresFramebuffer : Obligations.DrawTwiceRestoresFramebuffer := by
  intro x y n s h
  refine ⟨_, exec_drw_inside h, fun t hfb hmem hi hx hy => ?_⟩
  have hhits := spriteHits_congr hmem hi hx hy n
  have ht : n = 0 ∨ t.effAddr (n.toNat - 1) ≤ 0xFFF := by rwa [State.effAddr, hi]
  refine ⟨_, exec_drw_inside ht, fun px py => pixel_of_drawn_twice hfb (hhits px py), ?_⟩
  rw [draw_flag_eq_one_iff, hfb]
  refine exists₂_congr fun px py => ?_
  rw [hhits]
  exact and_congr_right pixel_drawn_of_hit

end Sys2Proof.Machine
end

section
/-! PROOFS. The pending events one after another (60_exceptions.md R142 (b), decisions D4, D29): the host's `run` over a
list of events performs each of them in turn, and the events after them stay pending. -/

namespace Sys2Proof.Machine

/-- The events of a list, performed in order, lead from one state to another. -/
def Performs : List Event → State → State → Prop
  | [],      s, t => t = s
  | e :: es, s, t => ∃ u, perform e s = .next u ∧ Performs es u t

theorem Performs.append {es es' : List Event} {s t u : State} (h : Performs es s t) (h' : Performs es' t u) :
    Performs (es ++ es') s u := by
  induction es generalizing s with
  | nil =>
    obtain rfl : t = s := h
    exact h'
  | cons e es ih =>
    obtain ⟨v, hfirst, hrest⟩ := h
    exact ⟨v, hfirst, ih hrest⟩

/-- An event input that is asserted contributes its event, one that is not contributes none (R30). -/
theorem performs_asserted {asserted : Bool} {e : Event} {s t : State}
    (h : if asserted then perform e s = .next t else t = s) : Performs (if asserted then [e] else []) s t := by
  cases asserted with
  | false => exact h
  | true => exact ⟨t, h, rfl⟩

/-- As many steps as the list is long perform the list, whatever is pending behind it. -/
theorem run_of_performs {evs : List Event} {s t : State} (es : List Event) (h : Performs evs s t) :
    Sys2Proof.core.run evs.length (s.withEvents (evs ++ es)) = .next (t.withEvents es) := by
  induction evs generalizing s with
  | nil =>
    obtain rfl : t = s := h
    rfl
  | cons e evs ih =>
    obtain ⟨u, hfirst, hrest⟩ := h
    have hstep : step (s.withEvents (e :: (evs ++ es))) = .next (u.withEvents (evs ++ es)) :=
      (step_withEvents e (evs ++ es) s).trans (perform_withEvents (evs ++ es) hfirst)
    exact (run_of_next hstep).trans (ih hrest)

/-- Settles O18: the three inputs contribute their events in this order, and the list performed is these three parts. -/
theorem simultaneousEventsAreOrdered : Obligations.SimultaneousEventsAreOrdered := by
  refine ⟨fun _ _ => ⟨rfl, rfl, rfl, rfl, rfl, rfl, rfl, rfl⟩, fun reset tick timer k r s es hev => ?_⟩
  let u := if reset then s.warmReset else s
  obtain ⟨v, hv⟩ : ∃ v, if tick then instrTick k r (u.withEvents es) = .next v else v = u.withEvents es := by
    cases tick with
    | false => exact ⟨_, rfl⟩
    | true => exact instrTick_answers_next k r _
  let t := if timer then v.timerTick else v
  have hreset : Performs (if reset then [.reset] else []) (s.withEvents es) (u.withEvents es) :=
    performs_asserted (by cases reset <;> rfl)
  have htick : Performs (if tick then [.instrTick k r] else []) (u.withEvents es) v := performs_asserted hv
  have htimer : Performs (if timer then [.timerTick] else []) v t := performs_asserted (by cases timer <;> rfl)
  have hall : Performs (Pins.mk reset tick timer k r).events (s.withEvents es) t :=
    (hreset.append htick).append htimer
  have hs : (s.withEvents es).withEvents ((Pins.mk reset tick timer k r).events ++ es) = s := withEvents_of_eq hev
  exact ⟨u, v, t, rfl, hv, rfl, hs ▸ run_of_performs es hall⟩

end Sys2Proof.Machine
end

section
/-! PROOFS. Keypad and timers (44_keypad_timers.md R115 to R127): the timers counting down, the wait for a key, and the
instructions. -/

namespace Sys2Proof.Machine

/-! ### The timers -/

theorem countDown_iterate_toNat (n : Nat) (b : Byte) : (countDown^[n] b).toNat = b.toNat - n := by
  induction n generalizing b with
  | zero => rfl
  | succ n ih => rw [Function.iterate_succ_apply, ih, countDown_toNat, Nat.sub_sub, Nat.add_comm]

/-- The state after `n` timer ticks outside Halted (R125). -/
def State.countedDown (n : Nat) (s : State) : State := (s.setDt (countDown^[n] s.dt)).setSt (countDown^[n] s.st)

theorem timerTick_eq_countedDown {s : State} (h : s.run ≠ .halted) : s.timerTick = s.countedDown 1 := timerTick_counting h

theorem countedDown_dt_toNat (n : Nat) (s : State) : (s.countedDown n).dt.toNat = s.dt.toNat - n :=
  countDown_iterate_toNat n s.dt

theorem countedDown_st_toNat (n : Nat) (s : State) : (s.countedDown n).st.toNat = s.st.toNat - n :=
  countDown_iterate_toNat n s.st

theorem frame_countedDown (n : Nat) (s : State) : Frame [.dt, .st] s (s.countedDown n) := by
  simp [Frame, State.countedDown]

/-- The tone is the level ST > 0 (R126, decision D18). -/
theorem tone_iff (s : State) : s.tone = true ↔ s.st.toNat > 0 := decide_eq_true_iff

/-- Settles O12: the tick is one count of each timer, and ST - 1 is above 0 exactly when ST is above 1. -/
theorem timerTickCountsBothTimersDown : Obligations.TimerTickCountsBothTimersDown := by
  intro s es hrun hev
  let s' := s.withEvents es
  have hstep : step s = .next (s'.countedDown 1) :=
    (step_of_event hev).trans (congrArg Host.Outcome.next (timerTick_eq_countedDown (s := s') hrun))
  refine ⟨_, hstep, countedDown_dt_toNat 1 s', countedDown_st_toNat 1 s', ?_, frame_countedDown 1 s'⟩
  rw [tone_iff, countedDown_st_toNat]
  exact Nat.sub_pos_iff_lt

/-! ### The wait for a key -/

theorem step_of_waiting {s : State} {x : Reg} {k : Keys} {r : Byte} {es : List Event} (hrun : s.run = .waitingForKey x)
    (hev : s.events = .instrTick k r :: es) : step s = .next ((s.withEvents es).waitStep x k) :=
  (step_of_event hev).trans (instrTick_waiting (s := s.withEvents es) k r hrun)

theorem exists_selectKey {k : Keys} (hk : k ≠ 0) : ∃ j, selectKey k = some j :=
  Option.ne_none_iff_exists'.mp (mt (selectKey_eq_none_iff k).mp hk)

/-- A key index fits a V register. -/
theorem keyByte_toNat (j : Fin 16) : (BitVec.ofNat 8 j.val).toNat = j.val :=
  Nat.mod_eq_of_lt (Nat.lt_trans j.isLt (by decide))

/-- The end of the wait writes VX and RUN alone (R121). -/
theorem frame_wake (s : State) (x : Reg) (b : Byte) : Frame [.v, .run] s ((s.setV x b).setRun .running) := by
  simp [Frame]

/-- Settles O13: the poll is one `waitStep`, which does nothing unless a key is selected, and then writes its index. -/
theorem waitEndsWithLowestPressedKey : Obligations.WaitEndsWithLowestPressedKey := by
  intro s x k r es hrun hev
  have hstep := step_of_waiting hrun hev
  refine ⟨fun hk => ?_, fun hk => ?_⟩
  · rw [hstep, waitStep_none _ x hk]
    rfl
  · obtain ⟨j, hj⟩ := exists_selectKey hk
    obtain ⟨hdown, hlowest⟩ := selectKey_eq_some hj
    rw [waitStep_some _ x hj] at hstep
    refine ⟨_, j, hstep, hdown, hlowest, ?_, rfl, keepsV_setV (s.withEvents es) x _, frame_wake (s.withEvents es) x _⟩
    rw [setRun_getV, setV_getV_self, keyByte_toNat]

/-- Idle events during the wait only count the timers: once for each timer tick (R120, R127). -/
theorem performs_idle {idle : List Event} {s : State} {x : Reg} (hrun : s.run = .waitingForKey x)
    (hidle : ∀ e ∈ idle, e = .timerTick ∨ ∃ b, e = .instrTick 0 b) :
    Performs idle s (s.countedDown (idle.count .timerTick)) := by
  induction idle generalizing s with
  | nil => rfl
  | cons e idle ih =>
    obtain ⟨he, hrest⟩ := List.forall_mem_cons.mp hidle
    rcases he with rfl | ⟨b, rfl⟩
    · have htick : perform .timerTick s = .next (s.countedDown 1) :=
        congrArg Host.Outcome.next (timerTick_eq_countedDown (by simp [hrun]))
      rw [List.count_cons_self]
      exact ⟨_, htick, ih (s := s.countedDown 1) hrun hrest⟩
    · have hpoll : perform (.instrTick 0 b) s = .next s :=
        (instrTick_waiting 0 b hrun).trans (congrArg Host.Outcome.next (waitStep_none s x rfl))
      rw [List.count_cons_of_ne (by simp)]
      exact ⟨_, hpoll, ih hrun hrest⟩

/-- Settles O14: the idle events count the timers and leave the rest, so the tick behind them finds the wait and ends it. -/
theorem waitLastsThroughIdleTicks : Obligations.WaitLastsThroughIdleTicks := by
  intro idle s x k r es hrun hev hk hidle
  let n := idle.count .timerTick
  let s' := s.withEvents (.instrTick k r :: es)
  let t := s'.countedDown n
  have hidleRun : Sys2Proof.core.run idle.length s = .next t := by
    have hall := run_of_performs (.instrTick k r :: es) (performs_idle hrun hidle)
    rwa [withEvents_of_eq hev] at hall
  obtain ⟨-, hends⟩ := waitEndsWithLowestPressedKey t x k r es hrun rfl
  obtain ⟨u, j, hstep, hdown, -, hindex, hrunning, -, hframe⟩ := hends hk
  obtain ⟨-, -, hpc, -⟩ := hframe
  refine ⟨t, u, hidleRun, hrun, countedDown_dt_toNat n s', countedDown_st_toNat n s', frame_countedDown n s', hstep,
    hrunning, hpc (by decide), ?_⟩
  rw [hindex, hdown]

/-! ### The keypad instructions -/

/-- With an index in range, or under `mask4`, the key is VX mod 16 (R118). -/
theorem keyIndex_of_le_or_mask4 {mode : KeyIndexMode} {b : Byte} (h : b.toNat ≤ 15 ∨ mode = .mask4) :
    keyIndex mode b = some ⟨b.toNat % 16, Nat.mod_lt _ (by decide)⟩ := by
  rcases h with hle | rfl
  · exact keyIndex_small mode b hle
  · exact keyIndex_mask4 b

/-- Settles O45: with a key index the instruction is `skipIf` of the key's level, and without one it halts. -/
theorem keypadSkipsTestSampledLevel : Obligations.KeypadSkipsTestSampledLevel := by
  intro x s i down hi
  have hexec : exec i s = .next (s.skipIfKey down x) := by
    rcases hi with ⟨rfl, rfl⟩ | ⟨rfl, rfl⟩
    · exact exec_skp x s
    · exact exec_sknp x s
  refine ⟨fun hindex => ⟨_, hexec, ?_⟩, fun ⟨hgt, hmode⟩ => ⟨_, hexec, ?_⟩⟩
  · rw [skipIfKey_some down (keyIndex_of_le_or_mask4 hindex), keyDown]
    refine ⟨fun hlevel hpc => ?_, fun hlevel hpc => ?_, fun hlevel => ?_⟩
    · rw [beq_iff_eq.mpr hlevel, skipIf_true, advancePC_ok s hpc]
      exact ⟨pc_add_two_toNat s.pc hpc, frame_setPc s _⟩
    · rw [beq_iff_eq.mpr hlevel, skipIf_true, advancePC_raise s hpc]
      exact raise_halts s _ _
    · rw [beq_eq_false_iff_ne.mpr hlevel, skipIf_false]
      exact Frame.refl [] s
  · rw [skipIfKey_none down (by rw [hmode, keyIndex_fault _ hgt])]
    exact raise_halts s _ _

/-- Settles O46: the meaning is one write of RUN. -/
theorem keyWaitOnlyEntersTheWait : Obligations.KeyWaitOnlyEntersTheWait :=
  fun x s => ⟨_, exec_ldVxK x s, rfl, rfl, frame_setRun s _⟩

/-! ### The timer instructions -/

/-- Settles O47: the word is the encoding of `FX07`, and the meaning is one write of VX. -/
theorem readDelayTimerIntoVx : Obligations.ReadDelayTimerIntoVx :=
  fun x => ⟨decodeWord_encode (.ldVxDt x), fun s => ⟨_, exec_ldVxDt x s, setV_getV_self s x _, setV_keeps_rest s x _⟩⟩

/-- Settles O48: the word is the encoding of `FX15`, and the meaning is one write of DT. -/
theorem setDelayTimerFromVx : Obligations.SetDelayTimerFromVx :=
  fun x => ⟨decodeWord_encode (.ldDtVx x), fun s => ⟨_, exec_ldDtVx x s, rfl, frame_setDt s _⟩⟩

/-- Settles O49: the word is the encoding of `FX18`, and the tone is on when the byte written to ST is above 0. -/
theorem setSoundTimerDrivesTone : Obligations.SetSoundTimerDrivesTone := by
  refine fun x => ⟨decodeWord_encode (.ldStVx x), fun s => ⟨_, exec_ldStVx x s, rfl, ?_, frame_setSt s _⟩⟩
  rw [tone_iff, setSt_st, gt_iff_lt, Nat.pos_iff_ne_zero, BitVec.toNat_ne]
  rfl

end Sys2Proof.Machine
end

section
/-! PROOFS. Fatal conditions (60_exceptions.md R132, R136, R138, R143, R144): which instruction raises which, that a halt
changes nothing else and that the halted core stays as it is, and the loader's failure beside the boot that succeeds. -/

namespace Sys2Proof.Machine

/-! ### The instructions that raise a condition, read off the table -/

theorem stackOverflow_mem_causes_iff (i : Instr) : .stackOverflow ∈ i.causes ↔ ∃ nnn, i = .call nnn := by
  cases i <;> simp [Instr.causes]

theorem stackUnderflow_mem_causes_iff (i : Instr) : .stackUnderflow ∈ i.causes ↔ i = .ret := by
  cases i <;> simp [Instr.causes]

theorem memoryOutOfBounds_mem_causes_iff (i : Instr) :
    .memoryOutOfBounds ∈ i.causes ↔ (∃ nnn, i = .jpV0 nnn) ∨ (∃ x y n, i = .drw x y n) ∨
      ∃ x, i = .ldB x ∨ i = .stRegs x ∨ i = .ldRegs x := by
  cases i <;> simp [Instr.causes]

theorem endOfMemory_mem_causes_iff (i : Instr) :
    .endOfMemory ∈ i.causes ↔ (∃ x nn, i = .seImm x nn ∨ i = .sneImm x nn) ∨
      (∃ x y, i = .seReg x y ∨ i = .sneReg x y) ∨ ∃ x, i = .skp x ∨ i = .sknp x := by
  cases i <;> simp [Instr.causes]

theorem keyIndexOutOfRange_mem_causes_iff (i : Instr) :
    .keyIndexOutOfRange ∈ i.causes ↔ ∃ x, i = .skp x ∨ i = .sknp x := by
  cases i <;> simp [Instr.causes]

/-! ### A halt is precise -/

/-- An instruction that completes does not halt the core. -/
theorem not_halted_of_keeps {i : Instr} {s t : State} (h : exec i s = .next t) (hkeeps : Keeps i.writes s t)
    (hrun : s.run ≠ .halted) : t.run ≠ .halted := by
  rcases exec_run_of_keeps h hkeeps with heq | ⟨x, -, heq⟩
  · rwa [heq]
  · simp [heq]

/-- A core that an instruction halts is the core it ran on with one of its conditions raised. -/
theorem exec_raises_of_halts {i : Instr} {s t : State} (h : exec i s = .next t) (hrun : s.run ≠ .halted)
    (hhalted : t.run = .halted) : ∃ c ∈ i.causes, ∃ n, t = s.raise c n :=
  (exec_haltsOrKeeps h).resolve_right fun hkeeps => not_halted_of_keeps h hkeeps hrun hhalted

/-- Settles O54: the halted state is a `raise` of one of the instruction's causes, and each cause has its raisers. -/
theorem fatalConditionsArePrecise : Obligations.FatalConditionsArePrecise := by
  intro i s t h hrun hhalted
  obtain ⟨c, hc, n, rfl⟩ := exec_raises_of_halts h hrun hhalted
  obtain ⟨-, hfault, -, hframe⟩ := raise_halts s c n
  refine ⟨hframe, ?_⟩
  rw [hfault]
  cases c with
  | none => exact absurd rfl (causes_fatal i _ hc).1
  | romTooLarge => exact absurd rfl (causes_fatal i _ hc).2
  | stackOverflow => exact .inl ⟨rfl, (stackOverflow_mem_causes_iff i).mp hc⟩
  | stackUnderflow => exact .inr (.inl ⟨rfl, (stackUnderflow_mem_causes_iff i).mp hc⟩)
  | memoryOutOfBounds => exact .inr (.inr (.inl ⟨rfl, (memoryOutOfBounds_mem_causes_iff i).mp hc⟩))
  | endOfMemory => exact .inr (.inr (.inr (.inl ⟨rfl, (endOfMemory_mem_causes_iff i).mp hc⟩)))
  | keyIndexOutOfRange => exact .inr (.inr (.inr (.inr ⟨rfl, (keyIndexOutOfRange_mem_causes_iff i).mp hc⟩)))

/-! ### The halted core -/

/-- Settles O10: each of the two ticks does nothing in Halted, so the step only takes the event away. -/
theorem haltedIgnoresTicks : Obligations.HaltedIgnoresTicks := by
  intro s e es hrun hev hne
  rw [step_of_event hev]
  cases e with
  | instrTick k r => exact instrTick_halted k r hrun
  | timerTick => exact congrArg Host.Outcome.next (timerTick_halted hrun)
  | reset => exact absurd rfl hne

/-! ### The cold boot -/

/-- The registers after reset with the strap set and the image stored from `0x200` on (R152). -/
def bootState (mode : KeyIndexMode) (image : List Byte) : State :=
  State.setMem (Memory.writeBytes [] 0x200 image) { State.reset with keyIndexMode := mode }

theorem coldBoot_started (mode : KeyIndexMode) {image : List Byte} (h : image.length ≤ 3584) :
    coldBoot mode image = .started (bootState mode image) :=
  if_neg (Nat.not_lt.mpr h)

theorem coldBoot_romTooLarge (mode : KeyIndexMode) {image : List Byte} (h : image.length > 3584) :
    coldBoot mode image = .romTooLarge image.length :=
  if_pos h

/-- The image ends inside MEM, so the boot's stores keep the canonical form; the rest of the invariant is reset's. -/
theorem bootState_inv (mode : KeyIndexMode) {image : List Byte} (h : 0x200 + image.length ≤ 0x1000) :
    (bootState mode image).Inv := by
  obtain ⟨hmem, haddr, hfault⟩ := resetMeetsInvariant
  exact ⟨Memory.wf_writeBytes h hmem, haddr, hfault⟩

/-- Settles O17: at most 3584 bytes from `0x200` on end inside MEM, where a store reads back and touches nothing else. -/
theorem coldBootLoadsImageVerbatim : Obligations.ColdBootLoadsImageVerbatim := by
  refine fun mode image => ⟨fun h => ⟨_, coldBoot_started mode h, ?_⟩, coldBoot_romTooLarge mode⟩
  have hfits : 0x200 + image.length ≤ 0x1000 := by omega
  have hempty : Memory.wf [] = true := rfl
  exact ⟨fun j hj => Memory.read_writeBytes_inside hfits hempty hj,
    fun a ha => Memory.read_writeBytes_outside hfits hempty ha, frame_setMem _ _, bootState_inv mode hfits⟩

end Sys2Proof.Machine
end

section
/-! PROOFS. Reset and the end of a run (70_reset_and_hazards.md R153, R166): what a Reset event leaves, and that a jump to
itself brings the core back to where it was. -/

namespace Sys2Proof.Machine

/-! ### The Reset event -/

/-- Settles O11: the step ends in `warmReset`, whose registers are those of the state after reset and whose MEM is the
state's own. -/
theorem resetEventRestoresRegisters : Obligations.ResetEventRestoresRegisters := by
  intro s es hev
  obtain ⟨hpc, hsp, hdt, hst, hv, hi, hstack, hfb, hir, hrun, hfault, hinfo⟩ := resetStateHoldsBootValues
  have hstep : step s = .next (s.withEvents es).warmReset := step_of_event hev
  exact ⟨_, hstep, hpc, hsp, hdt, hst, hv, hi, hstack, hfb, hir, hrun, hfault, hinfo, rfl, fun _ => rfl, rfl⟩

/-! ### The jump to itself -/

theorem selfJump_reached_iff (h : Addr12) (n : Nat) (s : State) :
    (EndOfRun.selfJump h).reached n s = true ↔ s.pc = zextAddr h ∧ s.wordAt h.toNat = encode (.jp h) := by
  rw [EndOfRun.reached, Bool.and_eq_true, beq_iff_eq, beq_iff_eq]

/-- Loading PC with the address fetched from undoes the fetch's advance, so only IR is left of the fetch. -/
theorem frame_fetched_setPc_self (s : State) (k : Keys) (r : Byte) :
    Frame [.ir] { s with key := k, rnd := r } ((s.fetched k r).setPc s.pc) := by
  simp [Frame, State.getV, State.readByte]

theorem step_of_selfJump {s : State} {h : Addr12} {k : Keys} {r : Byte} {es : List Event} (hrun : s.run = .running)
    (hfit : h.toNat ≤ 0xFFD) (hev : s.events = .instrTick k r :: es) (hpc : s.pc = zextAddr h)
    (hword : s.wordAt h.toNat = encode (.jp h)) : step s = .next (((s.withEvents es).fetched k r).setPc s.pc) := by
  have haddr : s.pc.toNat = h.toNat := by rw [hpc, zextAddr_toNat]
  have hdec : decodeWord (s.wordAt s.pc.toNat) = .instr (.jp h) := by rw [haddr, hword, decodeWord_encode]
  calc step s = exec (.jp h) ((s.withEvents es).fetched k r) := step_of_instr hrun hev (by omega) hdec
    _ = .next (((s.withEvents es).fetched k r).setPc s.pc) := by rw [exec_jp, hpc]

/-- Settles O59: the tick leaves PC and MEM as they were, which is all the predicate looks at. -/
theorem selfJumpEndsTheRun : Obligations.SelfJumpEndsTheRun := by
  intro s h n m k r es hrun hfit hev hreached
  obtain ⟨hpc, hword⟩ := (selfJump_reached_iff h n s).mp hreached
  have hagain : (EndOfRun.selfJump h).reached m (((s.withEvents es).fetched k r).setPc s.pc) = true :=
    (selfJump_reached_iff h m _).mpr ⟨hpc, hword⟩
  exact ⟨_, step_of_selfJump hrun hfit hev hpc hword, frame_fetched_setPc_self (s.withEvents es) k r, hagain⟩

end Sys2Proof.Machine
end
